-- ==== Sys2Proof/Word.lean ====
section
/-! DEFINITION. The widths of the machine's values (00_scope.md R3, R7; 10_state.md R21 to R30).
All values are unsigned (R10): no signed operation and no sign extension exists. -/

namespace Sys2Proof

/-- A data register, a timer or a memory cell: `XLEN` = 8 bits (R7). -/
abbrev Byte := BitVec 8

/-- `I`, `PC`, a stack slot or an instruction word: 16 bits (R3, R7). -/
abbrev Word := BitVec 16

/-- The field `nnn` of an instruction word: a 12-bit address or literal (R82). -/
abbrev Lit12 := BitVec 12

/-- A 4-bit field of an instruction word (R82). -/
abbrev Nibble := BitVec 4

/-- `bool(b)` as a byte: 1 for true, 0 for false (R12). -/
def boolByte (b : Bool) : Byte := if b then 1 else 0

end Sys2Proof
end

