-- ==== Sys2Proof/Config.lean ====
section
/-! DEFINITION. The parameters the spec fixes (00_scope.md R7), the two it leaves open with a default (R8), and
the free values of the environment's inputs. Every number of R7 is written here once. -/

namespace Sys2Proof.Config

/-- `NREG`: number of data registers (R7). -/
abbrev nreg : Nat := 16
/-- `MEM_SIZE`: bytes of memory, addresses 0x000 to 0xFFF (R7). -/
abbrev memSize : Nat := 4096
/-- `ENTRY`: load address of the program and reset value of `PC` (R7). -/
abbrev entry : Nat := 0x200
/-- `ROM_MAX`: the longest program image, `MEM_SIZE - ENTRY` (R7). -/
abbrev romMax : Nat := 3584
/-- `STACK_CAP`: number of call stack slots (R7). -/
abbrev stackCap : Nat := 12
/-- `DISP_W`: display width in pixels (R7). -/
abbrev dispW : Nat := 64
/-- `DISP_H`: display height in pixels (R7). -/
abbrev dispH : Nat := 32
/-- `DISP_CELLS`: `DISP_W * DISP_H` (R7). -/
abbrev dispCells : Nat := 2048
/-- `GLYPH_LEN`: bytes per glyph (R7). -/
abbrev glyphLen : Nat := 5
/-- `FONT_LEN`: bytes of the font table (R7). -/
abbrev fontLen : Nat := 80
/-- `NKEY`: number of keys (R7). -/
abbrev nkey : Nat := 16
/-- `ILEN`: bytes per instruction word (R7). -/
abbrev ilen : Nat := 2

/-- The value of `IPT` that `State.reset` carries: R8 recommends 8 where a single value is needed (decision D2).
The machine reads `IPT` from the state, so a statement about every state holds for every `IPT`.
DESIGN CHOICE, log entry 2. -/
def iptDefault : Nat := 8

/-- Glyphs 0 to 3 of the default `FONT` (20_memory.md R56). -/
def font0 : List Byte :=
  [0xF0, 0x90, 0x90, 0x90, 0xF0] ++ [0x20, 0x60, 0x20, 0x20, 0x70] ++
  [0xF0, 0x10, 0xF0, 0x80, 0xF0] ++ [0xF0, 0x10, 0xF0, 0x10, 0xF0]

/-- Glyphs 4 to 7 of the default `FONT` (R56). -/
def font4 : List Byte :=
  [0x90, 0x90, 0xF0, 0x10, 0x10] ++ [0xF0, 0x80, 0xF0, 0x10, 0xF0] ++
  [0xF0, 0x80, 0xF0, 0x90, 0xF0] ++ [0xF0, 0x10, 0x20, 0x40, 0x40]

/-- Glyphs 8 to B of the default `FONT` (R56). -/
def font8 : List Byte :=
  [0xF0, 0x90, 0xF0, 0x90, 0xF0] ++ [0xF0, 0x90, 0xF0, 0x10, 0xF0] ++
  [0xF0, 0x90, 0xF0, 0x90, 0x90] ++ [0xE0, 0x90, 0xE0, 0x90, 0xE0]

/-- Glyphs C to F of the default `FONT` (R56). -/
def fontC : List Byte :=
  [0xF0, 0x80, 0x80, 0x80, 0xF0] ++ [0xE0, 0x90, 0x90, 0x90, 0xE0] ++
  [0xF0, 0x80, 0xF0, 0x80, 0xF0] ++ [0xF0, 0x80, 0xF0, 0x80, 0x80]

/-- A value of the parameter `FONT`: 80 bytes (R8, decision D11). The load takes it as an argument. -/
abbrev Font := Vector Byte fontLen

/-- The default of `FONT`: the table of R56 (R8).
PRESUMED, log entry 3: R56 marks the bytes as general knowledge. -/
def fontDefault : Font := ⟨(font0 ++ font4 ++ font8 ++ fontC).toArray, rfl⟩

/-- FREE VALUE: the key states the environment presents for the tick numbered by the argument, where the state's
list of key states to come says nothing (10_state.md R36: the input layer sets them as it likes). Log entry 5. -/
opaque freeKeys : Nat → Vector Bool nkey

/-- FREE VALUE: the byte on the random input at the draw numbered by the argument, where the state's list of
samples to come says nothing (R36, decision D12: a free input under no law). Log entry 4. -/
opaque freeRnd : Nat → Byte

end Sys2Proof.Config
end

