-- ==== Sys2Proof/Syntax.lean ====
section
/-! DEFINITION. The instruction set as syntax: one constructor for each of the 34 rows of the opcode map
(30_encoding.md R87, R91), in the map's order. An operand has exactly the width of its field (R82, R84), so a
register index names an existing register whatever its value. The fields an instruction ignores (R89) are kept
as arguments, so that a word and its instruction determine each other; no meaning reads them. -/

namespace Sys2Proof

/-- A register index: the 4-bit field `x` or `y` (R82, R84). -/
abbrev Reg := Fin Config.nreg

/-- Register 15, the flag register `VF` (10_state.md R23). -/
abbrev VF : Reg := 15

/-- The instructions. In each docstring: the pattern and the spelling of R87. -/
inductive Instr where
  /-- `0-E0` `CLS`; `x` is ignored (R89). -/
  | cls (x : Reg)
  /-- `0-EE` `RET`; `x` is ignored (R89). -/
  | ret (x : Reg)
  /-- `1nnn` `JP nnn` -/
  | jp (nnn : Lit12)
  /-- `2nnn` `CALL nnn` -/
  | call (nnn : Lit12)
  /-- `3xnn` `SE Vx, nn` -/
  | seImm (x : Reg) (nn : Byte)
  /-- `4xnn` `SNE Vx, nn` -/
  | sneImm (x : Reg) (nn : Byte)
  /-- `5xy0` `SE Vx, Vy` -/
  | seReg (x y : Reg)
  /-- `6xnn` `LD Vx, nn` -/
  | ldImm (x : Reg) (nn : Byte)
  /-- `7xnn` `ADD Vx, nn` -/
  | addImm (x : Reg) (nn : Byte)
  /-- `8xy0` `LD Vx, Vy` -/
  | ldReg (x y : Reg)
  /-- `8xy1` `OR Vx, Vy` -/
  | orReg (x y : Reg)
  /-- `8xy2` `AND Vx, Vy` -/
  | andReg (x y : Reg)
  /-- `8xy3` `XOR Vx, Vy` -/
  | xorReg (x y : Reg)
  /-- `8xy4` `ADD Vx, Vy` -/
  | addReg (x y : Reg)
  /-- `8xy5` `SUB Vx, Vy` -/
  | sub (x y : Reg)
  /-- `8xy6` `SHR Vx`; `y` is ignored (R89). -/
  | shr (x y : Reg)
  /-- `8xy7` `SUBN Vx, Vy` -/
  | subn (x y : Reg)
  /-- `8xyE` `SHL Vx`; `y` is ignored (R89). -/
  | shl (x y : Reg)
  /-- `9xy-` `SNE Vx, Vy`; `n` is ignored (R89). -/
  | sneReg (x y : Reg) (n : Nibble)
  /-- `Annn` `LD I, nnn` -/
  | ldI (nnn : Lit12)
  /-- `Bnnn` `JP V0, nnn` -/
  | jpV0 (nnn : Lit12)
  /-- `Cxnn` `RND Vx, nn` -/
  | rnd (x : Reg) (nn : Byte)
  /-- `Dxyn` `DRW Vx, Vy, n` -/
  | drw (x y : Reg) (n : Nibble)
  /-- `Ex9E` `SKP Vx` -/
  | skp (x : Reg)
  /-- `ExA1` `SKNP Vx` -/
  | sknp (x : Reg)
  /-- `Fx07` `LD Vx, DT` -/
  | ldFromDt (x : Reg)
  /-- `Fx0A` `LD Vx, K` -/
  | ldKey (x : Reg)
  /-- `Fx15` `LD DT, Vx` -/
  | ldDt (x : Reg)
  /-- `Fx18` `LD ST, Vx` -/
  | ldSt (x : Reg)
  /-- `Fx1E` `ADD I, Vx` -/
  | addI (x : Reg)
  /-- `Fx29` `LD F, Vx` -/
  | ldFont (x : Reg)
  /-- `Fx33` `LD B, Vx` -/
  | ldBcd (x : Reg)
  /-- `Fx55` `LD [I], Vx` -/
  | storeRegs (x : Reg)
  /-- `Fx65` `LD Vx, [I]` -/
  | loadRegs (x : Reg)
  deriving DecidableEq, Repr

end Sys2Proof
end

