-- ==== Sys2Proof/WellFormed.lean ====
section
/-! DEFINITION. Well-formed instructions. Every field has its exact width in `Instr`, so no operand is out of
range (30_encoding.md R84). What is left to check is R89's rule for what an assembler emits: the canonical
encoding, in which every ignored field is zero. The machine runs the other forms as well, with the same effect. -/

namespace Sys2Proof

/-- The instruction with its ignored fields zero (R89). -/
def Instr.canonical : Instr → Instr
  | .cls _ => .cls 0
  | .ret _ => .ret 0
  | .shr x _ => .shr x 0
  | .shl x _ => .shl x 0
  | .sneReg x y _ => .sneReg x y 0
  | i => i

/-- An instruction as an assembler may emit it: every ignored field is zero (R89). -/
def Instr.wellFormed : Instr → Bool
  | .cls x => x == 0
  | .ret x => x == 0
  | .shr _ y => y == 0
  | .shl _ y => y == 0
  | .sneReg _ _ n => n == 0
  | _ => true

end Sys2Proof
end

