-- ==== Sys2Proof/Decode.lean ====
section
/-! DEFINITION. The decoder: fields (30_encoding.md R82), dispatch (R86 to R89), and the words with no handler
(R88), rejected by name. Then the encoder, and the opcode map of R87 as a table of masks. -/

namespace Sys2Proof

/-- Why bytes are no instruction. -/
inductive DecodeError where
  /-- The word has no handler (R88): the machine reports it and goes on (40_fetch_dispatch.md R105). -/
  | malformed (w : Word)
  /-- Fewer than the two bytes of a word (R80); the fetch never gives such a list. -/
  | truncated
  deriving DecidableEq, Repr

/-- The decoded record of R82: every field of the word, whether or not the instruction uses it. -/
structure Fields where
  opcode : Word
  key : Nibble
  nnn : Lit12
  nn : Byte
  n : Nibble
  x : Reg
  y : Reg
  deriving DecidableEq, Repr

/-- The decoder's field extraction (R82): pure and total (R83). -/
def fields (w : Word) : Fields where
  opcode := w
  key := w.extractLsb' 12 4
  nnn := w.extractLsb' 0 12
  nn := w.extractLsb' 0 8
  n := w.extractLsb' 0 4
  x := (w.extractLsb' 8 4).toFin
  y := (w.extractLsb' 4 4).toFin

/-- Key 0x0 dispatches on `nn` (R86); `x` is not tested (R89). -/
def dispatch0 (f : Fields) : Option Instr :=
  if f.nn = 0xE0 then some (.cls f.x)
  else if f.nn = 0xEE then some (.ret f.x)
  else none

/-- Key 0x5 checks `n = 0` (R86). -/
def dispatch5 (f : Fields) : Option Instr :=
  if f.n = 0 then some (.seReg f.x f.y) else none

/-- Key 0x8 dispatches on `n` (R86). -/
def dispatch8 (f : Fields) : Option Instr :=
  if f.n = 0x0 then some (.ldReg f.x f.y)
  else if f.n = 0x1 then some (.orReg f.x f.y)
  else if f.n = 0x2 then some (.andReg f.x f.y)
  else if f.n = 0x3 then some (.xorReg f.x f.y)
  else if f.n = 0x4 then some (.addReg f.x f.y)
  else if f.n = 0x5 then some (.sub f.x f.y)
  else if f.n = 0x6 then some (.shr f.x f.y)
  else if f.n = 0x7 then some (.subn f.x f.y)
  else if f.n = 0xE then some (.shl f.x f.y)
  else none

/-- Key 0xE dispatches on `nn` (R86). -/
def dispatchE (f : Fields) : Option Instr :=
  if f.nn = 0x9E then some (.skp f.x)
  else if f.nn = 0xA1 then some (.sknp f.x)
  else none

/-- Key 0xF dispatches on `nn` (R86). -/
def dispatchF (f : Fields) : Option Instr :=
  if f.nn = 0x07 then some (.ldFromDt f.x)
  else if f.nn = 0x0A then some (.ldKey f.x)
  else if f.nn = 0x15 then some (.ldDt f.x)
  else if f.nn = 0x18 then some (.ldSt f.x)
  else if f.nn = 0x1E then some (.addI f.x)
  else if f.nn = 0x29 then some (.ldFont f.x)
  else if f.nn = 0x33 then some (.ldBcd f.x)
  else if f.nn = 0x55 then some (.storeRegs f.x)
  else if f.nn = 0x65 then some (.loadRegs f.x)
  else none

/-- Primary dispatch on the key, one handler for each of the 16 keys (R86). Nothing but the word is read
(40_fetch_dispatch.md R104). -/
def dispatchKey (f : Fields) : Option Instr :=
  if f.key = 0x0 then dispatch0 f
  else if f.key = 0x1 then some (.jp f.nnn)
  else if f.key = 0x2 then some (.call f.nnn)
  else if f.key = 0x3 then some (.seImm f.x f.nn)
  else if f.key = 0x4 then some (.sneImm f.x f.nn)
  else if f.key = 0x5 then dispatch5 f
  else if f.key = 0x6 then some (.ldImm f.x f.nn)
  else if f.key = 0x7 then some (.addImm f.x f.nn)
  else if f.key = 0x8 then dispatch8 f
  else if f.key = 0x9 then some (.sneReg f.x f.y f.n)
  else if f.key = 0xA then some (.ldI f.nnn)
  else if f.key = 0xB then some (.jpV0 f.nnn)
  else if f.key = 0xC then some (.rnd f.x f.nn)
  else if f.key = 0xD then some (.drw f.x f.y f.n)
  else if f.key = 0xE then dispatchE f
  else dispatchF f

/-- The instruction a word selects, or its rejection by name: a malformed dispatch (R87, R88). -/
def decodeWord (w : Word) : Except DecodeError Instr :=
  match dispatchKey (fields w) with
  | some i => .ok i
  | none => .error (.malformed w)

/-- The word of two bytes, big-endian: `W = byte0 << 8 | byte1` (R81). -/
def wordOfBytes (byte0 byte1 : Byte) : Word := byte0 ++ byte1

/-- The two bytes of a word as memory holds them, the high byte at the lower address (R81). -/
def bytesOfWord (w : Word) : Byte × Byte := (w.extractLsb' 8 8, w.extractLsb' 0 8)

/-- The decoder over bytes: one word (R80) and the bytes that follow it. -/
def decode : List Byte → Except DecodeError (Instr × List Byte)
  | b0 :: b1 :: rest =>
    match decodeWord (wordOfBytes b0 b1) with
    | .ok i => .ok (i, rest)
    | .error e => .error e
  | _ => .error .truncated

/-- The low `nbits` bits of a table word, as a word (bit 0 is the least significant bit, R11). -/
def tableWord (nbits w : Nat) : Word := BitVec.ofNat 16 (w % 2 ^ nbits)

/-- The instruction the decoder reads from the table's word `w` of `nbits` bits, laid out in memory order. -/
def decodeTableWord (nbits w : Nat) : Option Instr :=
  match decode [(bytesOfWord (tableWord nbits w)).1, (bytesOfWord (tableWord nbits w)).2] with
  | .ok (i, _) => some i
  | .error _ => none

/-! The encoder. -/

/-- A register index as its 4-bit field (R82). -/
def regField (r : Reg) : Nibble := BitVec.ofFin r

/-- Format `NNN` (R85). -/
def formatNNN (key : Nibble) (nnn : Lit12) : Word := key ++ nnn

/-- Format `XNN` (R85); formats `X` and `Z` are this one with a fixed `nn`. -/
def formatXNN (key : Nibble) (x : Reg) (nn : Byte) : Word := key ++ regField x ++ nn

/-- Format `XYN` (R85); format `XY` is this one with a fixed or ignored `n`. -/
def formatXYN (key : Nibble) (x y : Reg) (n : Nibble) : Word := key ++ regField x ++ regField y ++ n

/-- The word of an instruction (R85, R87). -/
def encode : Instr → Word
  | .cls x => formatXNN 0x0 x 0xE0
  | .ret x => formatXNN 0x0 x 0xEE
  | .jp nnn => formatNNN 0x1 nnn
  | .call nnn => formatNNN 0x2 nnn
  | .seImm x nn => formatXNN 0x3 x nn
  | .sneImm x nn => formatXNN 0x4 x nn
  | .seReg x y => formatXYN 0x5 x y 0x0
  | .ldImm x nn => formatXNN 0x6 x nn
  | .addImm x nn => formatXNN 0x7 x nn
  | .ldReg x y => formatXYN 0x8 x y 0x0
  | .orReg x y => formatXYN 0x8 x y 0x1
  | .andReg x y => formatXYN 0x8 x y 0x2
  | .xorReg x y => formatXYN 0x8 x y 0x3
  | .addReg x y => formatXYN 0x8 x y 0x4
  | .sub x y => formatXYN 0x8 x y 0x5
  | .shr x y => formatXYN 0x8 x y 0x6
  | .subn x y => formatXYN 0x8 x y 0x7
  | .shl x y => formatXYN 0x8 x y 0xE
  | .sneReg x y n => formatXYN 0x9 x y n
  | .ldI nnn => formatNNN 0xA nnn
  | .jpV0 nnn => formatNNN 0xB nnn
  | .rnd x nn => formatXNN 0xC x nn
  | .drw x y n => formatXYN 0xD x y n
  | .skp x => formatXNN 0xE x 0x9E
  | .sknp x => formatXNN 0xE x 0xA1
  | .ldFromDt x => formatXNN 0xF x 0x07
  | .ldKey x => formatXNN 0xF x 0x0A
  | .ldDt x => formatXNN 0xF x 0x15
  | .ldSt x => formatXNN 0xF x 0x18
  | .addI x => formatXNN 0xF x 0x1E
  | .ldFont x => formatXNN 0xF x 0x29
  | .ldBcd x => formatXNN 0xF x 0x33
  | .storeRegs x => formatXNN 0xF x 0x55
  | .loadRegs x => formatXNN 0xF x 0x65

/-! The opcode map as the spec prints it: rows of masks. The decoder above follows the dispatch of R86 and does
not read this table; that the two agree is a statement of the model. -/

/-- A row of the opcode map: it selects a word `W` when `W & mask == fixed` (R87). -/
structure OpcodeRow where
  mask : Word
  fixed : Word
  deriving DecidableEq, Repr

/-- `W & mask == match` (R87). -/
def OpcodeRow.selects (r : OpcodeRow) (w : Word) : Bool := w &&& r.mask == r.fixed

/-- The row of the opcode map an instruction belongs to (R87). -/
def Instr.row : Instr → OpcodeRow
  | .cls _ => ⟨0xF0FF, 0x00E0⟩
  | .ret _ => ⟨0xF0FF, 0x00EE⟩
  | .jp _ => ⟨0xF000, 0x1000⟩
  | .call _ => ⟨0xF000, 0x2000⟩
  | .seImm _ _ => ⟨0xF000, 0x3000⟩
  | .sneImm _ _ => ⟨0xF000, 0x4000⟩
  | .seReg _ _ => ⟨0xF00F, 0x5000⟩
  | .ldImm _ _ => ⟨0xF000, 0x6000⟩
  | .addImm _ _ => ⟨0xF000, 0x7000⟩
  | .ldReg _ _ => ⟨0xF00F, 0x8000⟩
  | .orReg _ _ => ⟨0xF00F, 0x8001⟩
  | .andReg _ _ => ⟨0xF00F, 0x8002⟩
  | .xorReg _ _ => ⟨0xF00F, 0x8003⟩
  | .addReg _ _ => ⟨0xF00F, 0x8004⟩
  | .sub _ _ => ⟨0xF00F, 0x8005⟩
  | .shr _ _ => ⟨0xF00F, 0x8006⟩
  | .subn _ _ => ⟨0xF00F, 0x8007⟩
  | .shl _ _ => ⟨0xF00F, 0x800E⟩
  | .sneReg _ _ _ => ⟨0xF000, 0x9000⟩
  | .ldI _ => ⟨0xF000, 0xA000⟩
  | .jpV0 _ => ⟨0xF000, 0xB000⟩
  | .rnd _ _ => ⟨0xF000, 0xC000⟩
  | .drw _ _ _ => ⟨0xF000, 0xD000⟩
  | .skp _ => ⟨0xF0FF, 0xE09E⟩
  | .sknp _ => ⟨0xF0FF, 0xE0A1⟩
  | .ldFromDt _ => ⟨0xF0FF, 0xF007⟩
  | .ldKey _ => ⟨0xF0FF, 0xF00A⟩
  | .ldDt _ => ⟨0xF0FF, 0xF015⟩
  | .ldSt _ => ⟨0xF0FF, 0xF018⟩
  | .addI _ => ⟨0xF0FF, 0xF01E⟩
  | .ldFont _ => ⟨0xF0FF, 0xF029⟩
  | .ldBcd _ => ⟨0xF0FF, 0xF033⟩
  | .storeRegs _ => ⟨0xF0FF, 0xF055⟩
  | .loadRegs _ => ⟨0xF0FF, 0xF065⟩

end Sys2Proof
end

