-- ==== Sys2Proof/Machine/State.lean ====
section
/-! DEFINITION. The machine's state as plain data (10_state.md), the faults and the refusals, and the state after
reset (R42). INVENTORY.md lists every field with its rule. -/

namespace Sys2Proof.Machine

/-- The four fault causes with the information word each records (60_exceptions.md R201). They are the values
of the latch `FAULT`: a faulting step answers a NEXT state that holds one (R203), and no step of this model
answers `Host.Outcome.fault`. All are safe where the spec decided to stop what its source leaves open (D7, D8). -/
inductive Fault where
  /-- Code 1, raised by `CALL nnn` at `SP = 12`; `a` is the address of the `CALL` word. Safe. -/
  | stackOverflow (a : Word)
  /-- Code 2, raised by `RET` at `SP = 0`; `a` is the address of the `RET` word. Safe. -/
  | stackUnderflow (a : Word)
  /-- Code 3, raised by the fetch, `DRW`, `LD B, Vx`, `LD [I], Vx` and `LD Vx, [I]`; `addr` is the lowest address
  above 0xFFF the step must access, an exact integer (20_memory.md R51). Safe. -/
  | memoryOutOfRange (addr : Nat)
  /-- Code 4, raised by `SKP Vx` and `SKNP Vx` when `V[x] > 15`; `value` is `V[x]`. Safe. -/
  | keypadIndexOutOfRange (value : Byte)
  deriving DecidableEq, Repr

/-- The numeric code of a fault (R201). -/
def Fault.code : Fault → Nat
  | .stackOverflow _ => 1
  | .stackUnderflow _ => 2
  | .memoryOutOfRange _ => 3
  | .keypadIndexOutOfRange _ => 4

/-- Why the model gives no next state. -/
inductive Refusal where
  /-- Raised by `exec`'s arm of an instruction without a meaning; no arm is left with it. Safe. -/
  | notModelled (mnemonic : String)
  /-- Raised by `load`, never by a step: the image is longer than `ROM_MAX`, and the environment is told the byte
  count and the capacity (70_reset_and_hazards.md R233, 60_exceptions.md R209). Safe: no initial state exists. -/
  | romOversize (length capacity : Nat)
  deriving DecidableEq, Repr

/-- The cells of `MEM` that differ from what an unlisted address reads as (`Memory.background`), in rising order
of address (`Memory.wf`). -/
abbrev Memory := List Host.Cell

/-- The display: 2048 one-bit cells, cell `y * 64 + x` (20_memory.md R67). -/
abbrev Display := Vector Bool Config.dispCells

/-- The 16 key states, `true` for pressed (20_memory.md R68). -/
abbrev Keypad := Vector Bool Config.nkey

/-- The state of the machine between two instruction steps. -/
structure State where
  /-- `V[0]` to `V[15]` (10_state.md R21). -/
  v : Vector Byte Config.nreg
  /-- `I` (R25). -/
  i : Word
  /-- `PC`, the address of the next word to fetch (R26). -/
  pc : Word
  /-- `SP`, the number of return addresses held, 0 to 12 (R30). -/
  sp : Fin (Config.stackCap + 1)
  /-- `STACK[0]` to `STACK[11]` (R29). -/
  stack : Vector Word Config.stackCap
  /-- `DT` (R31). -/
  dt : Byte
  /-- `ST` (R31). -/
  st : Byte
  /-- `TONE` (R32). -/
  tone : Bool
  /-- `FAULT` (R34). -/
  fault : Option Fault
  /-- `MEM` (20_memory.md R50). -/
  mem : Memory
  /-- `DISP` (R67). -/
  disp : Display
  /-- How many instruction steps of the current tick have run (R39). -/
  burst : Nat
  /-- The words of the report events so far, oldest first (R41, 60_exceptions.md R208). -/
  reports : List Word
  /-- `KEY[0..15]` of the current tick (R36, 40_fetch_dispatch.md R110). -/
  key : Keypad
  /-- The parameter `IPT` of this machine (00_scope.md R8); no step writes it. Log entry 2. -/
  ipt : Nat
  /-- The model's own: the key states of the ticks to come, oldest first. Log entry 5. -/
  keyIn : List Keypad
  /-- The model's own: the samples of the random input to come, oldest first. Log entry 4. -/
  rndIn : List Byte
  /-- The model's own: how many ticks have ended; it numbers the free key states. Log entry 5. -/
  ticks : Nat
  /-- The model's own: how many samples have been taken; it numbers the free samples. Log entry 4. -/
  draws : Nat
  deriving DecidableEq, Repr

/-- The state after reset with the empty image and the default `FONT` (R42, 70_reset_and_hazards.md R231, R232): the
font table and zeros in memory, so nothing is listed there. `load` gives it with another image or `FONT`. Log entries 2, 4, 5 and 7 name the values the spec's source does not give. -/
def State.reset : State where
  v := Vector.replicate Config.nreg 0
  i := 0
  pc := BitVec.ofNat 16 Config.entry
  sp := 0
  stack := Vector.replicate Config.stackCap 0
  dt := 0
  st := 0
  tone := false
  fault := none
  mem := []
  disp := Vector.replicate Config.dispCells false
  burst := 0
  reports := []
  key := Vector.replicate Config.nkey false
  ipt := Config.iptDefault
  keyIn := []
  rndIn := []
  ticks := 0
  draws := 0

end Sys2Proof.Machine
end

