-- ==== Sys2Proof/Machine/Ops.lean ====
section
/-! DEFINITION. The shared operations over memory, registers, stack, display, keypad and inputs, and fault entry. -/

namespace Sys2Proof.Machine

/-! ## Memory (20_memory.md) -/

/-- What an unlisted address reads as: the content of `State.reset`'s memory, that is the default font table, then
zero (10_state.md R42, 20_memory.md R56, R57). Another `FONT` is listed by `load`. Log entry 8. -/
def Memory.background (a : Nat) : Byte := Config.fontDefault[a]?.getD 0

/-- `MEM[a]`: the listed byte, else the reset content (R52, R63). -/
def Memory.read : Memory → Nat → Byte
  | [], a => Memory.background a
  | (k, b) :: m, a => if a = k then b else Memory.read m a

/-- The cell `(a, b)` in front of `m`, unless it holds what an unlisted address reads as. -/
def Memory.cons (a : Nat) (b : Byte) (m : Memory) : Memory :=
  if b = Memory.background a then m else (a, b) :: m

/-- `b` at address `a`, keeping the cells in rising order. -/
def Memory.put : Memory → Nat → Byte → Memory
  | [], a, b => Memory.cons a b []
  | (k, c) :: m, a, b =>
    if a < k then Memory.cons a b ((k, c) :: m)
    else if a = k then Memory.cons a b m
    else (k, c) :: Memory.put m a b

/-- `MEM[a] <- b` for an address of the memory (R53). An address above 0xFFF never reaches this write: the range
check of the instruction comes first (R55). -/
def Memory.write (m : Memory) (a : Nat) (b : Byte) : Memory :=
  if a < Config.memSize then Memory.put m a b else m

/-- The canonical form: addresses strictly rising and inside the memory, no cell equal to what an unlisted address
reads as. -/
abbrev Memory.wf (m : Memory) : Prop :=
  m.Pairwise (fun p q => p.1 < q.1) ∧ ∀ c ∈ m, c.1 < Config.memSize ∧ c.2 ≠ Memory.background c.1

/-- Successive byte writes at ascending addresses (R59). -/
def Memory.writeBytes : Memory → Nat → List Byte → Memory
  | m, _, [] => m
  | m, a, b :: bs => Memory.writeBytes (Memory.write m a b) (a + 1) bs

/-- Successive byte reads at ascending addresses (R59). -/
def Memory.readBytes (m : Memory) (a n : Nat) : List Byte :=
  (List.range n).map fun k => Memory.read m (a + k)

/-- The two-byte read of the fetch, the byte at the lower address high (R54). -/
def Memory.readWord (m : Memory) (a : Nat) : Word :=
  wordOfBytes (Memory.read m a) (Memory.read m (a + 1))

/-- The lowest address above 0xFFF among the `count` addresses from `base` on, if there is one (R55). Addresses are
exact integers (R51). -/
def firstOutOfRange (base count : Nat) : Option Nat :=
  if count = 0 ∨ base + count ≤ Config.memSize then none else some (max base Config.memSize)

/-! ## Fault entry (60_exceptions.md) -/

/-- `raise Fault` (00_scope.md R15): `s` is the state before the instruction step, `PC` still at the faulting word;
the latch is set and nothing else is written (60_exceptions.md R203). There is no return from a fault (R204). -/
def raise (f : Fault) (s : State) : Host.Outcome State Fault Refusal := .next { s with fault := some f }

/-- The range check of an instruction that accesses `count` bytes from `base` on, made before any of its writes
(20_memory.md R55): the fault of the lowest address above 0xFFF, or the completed instruction `t`. -/
def withRange (base count : Nat) (s t : State) : Host.Outcome State Fault Refusal :=
  match firstOutOfRange base count with
  | some a => raise (.memoryOutOfRange a) s
  | none => .next t

/-! ## Registers (10_state.md) -/

/-- `V[r]` (R21). -/
def State.getV (s : State) (r : Reg) : Byte := s.v.get r

/-- `V[r] <- b`; no register is hardwired (R21). -/
def State.setV (s : State) (r : Reg) (b : Byte) : State := { s with v := s.v.set r.val b r.isLt }

/-- `VF <- bool(b)`: all eight bits are written, 0x00 or 0x01 (R23). -/
def State.setFlag (s : State) (b : Bool) : State := s.setV VF (boolByte b)

/-- `I <- w` (R25). -/
def State.setI (s : State) (w : Word) : State := { s with i := w }

/-- `PC <- w` (R26). -/
def State.setPc (s : State) (w : Word) : State := { s with pc := w }

/-- `PC <- PC + 2`: the advance of the fetch (40_fetch_dispatch.md R102). -/
def State.advance (s : State) : State := s.setPc (s.pc + 2)

/-- The next sequential word, or the one after it if `c` holds: "skip next instruction" (41_flow_and_skip.md R120). -/
def State.skipIf (s : State) (c : Bool) : State := s.setPc (if c then s.pc + 4 else s.pc + 2)

/-- `DT <- b` (R31). -/
def State.setDt (s : State) (b : Byte) : State := { s with dt := b }

/-- `ST <- b` (R31). -/
def State.setSt (s : State) (b : Byte) : State := { s with st := b }

/-- `MEM` after the writes of an instruction. -/
def State.setMem (s : State) (m : Memory) : State := { s with mem := m }

/-- `DISP` after the writes of an instruction. -/
def State.setDisp (s : State) (d : Display) : State := { s with disp := d }

/-! ## Call stack (10_state.md R29, R30) -/

/-- `STACK[SP] <- w; SP <- SP + 1`, if a slot is free (R30). -/
def State.push (s : State) (w : Word) : Option State :=
  if h : s.sp.val < Config.stackCap then
    some { s with stack := s.stack.set s.sp.val w h, sp := ⟨s.sp.val + 1, by omega⟩ }
  else none

/-- `SP <- SP - 1` and the slot `STACK[SP]` then read, if a return address is held (R30). The slot keeps its
value. -/
def State.pop (s : State) : Option (State × Word) :=
  if h : 0 < s.sp.val then
    some ({ s with sp := ⟨s.sp.val - 1, by omega⟩ }, s.stack[s.sp.val - 1]'(by omega))
  else none

/-! ## Display (20_memory.md R67) -/

/-- The index of the cell in column `x`, row `y` (R67). -/
def cellIndex (x y : Nat) : Nat := y * Config.dispW + x

/-- `DISP[k]`. -/
def Display.cell (d : Display) (k : Nat) : Bool := d[k]?.getD false

/-- `DISP[k] <- b`. -/
def Display.setCell (d : Display) (k : Nat) (b : Bool) : Display := d.setIfInBounds k b

/-- The display with every cell 0. -/
def Display.clear : Display := Vector.replicate Config.dispCells false

/-! ## Inputs (10_state.md R36) -/

/-- `KEY[k]` of the current tick (20_memory.md R68). -/
def State.keyAt (s : State) (k : Nat) : Bool := s.key[k]?.getD false

/-- The least index of a pressed key, scanning 0 to 15 in order (45_keypad_timers.md R194). -/
def State.firstKey (s : State) : Option Reg := (List.finRange Config.nkey).find? fun k => s.key.get k

/-- `draw_rnd()`: the sample on the random input (00_scope.md R15): the next one the environment has ready, else a
free value. Log entry 4. -/
def State.sample (s : State) : Byte := s.rndIn.headD (Config.freeRnd s.draws)

/-- The state after one sample has been taken (40_fetch_dispatch.md R111, 60_exceptions.md R216). -/
def State.takeSample (s : State) : State := { s with rndIn := s.rndIn.tail, draws := s.draws + 1 }

/-- The key states the environment presents for the next tick: the next ones it has ready, else a free value.
Log entry 5. -/
def State.nextKeys (s : State) : Keypad := s.keyIn.headD (Config.freeKeys s.ticks)

end Sys2Proof.Machine
end

