-- ==== Sys2Proof/Machine/Operands.lean ====
section
/-! DEFINITION. The operand forms of the instruction words (30_encoding.md R84) and the one addressing mode for
data (43_index_memory.md R160). A register operand is `State.getV`; `nn` is a byte as it stands. -/

namespace Sys2Proof.Machine

/-- `nnn` as a 16-bit address, bits 15 to 12 zero (R84). -/
def addrOf (nnn : Lit12) : Word := nnn.zeroExtend 16

/-- `V[x]` as a 16-bit value 0 to 255: the source's word "widened" (00_scope.md R12). -/
def widen (b : Byte) : Word := b.zeroExtend 16

/-- `V[0] + nnn`, the target of the jump with offset; the exact sum fits 16 bits (41_flow_and_skip.md R128). -/
def offsetTarget (s : State) (nnn : Lit12) : Word := widen (s.getV 0) + addrOf nnn

/-- The effective address `I` of a data access, an exact integer (20_memory.md R51). -/
def dataAddr (s : State) : Nat := s.i.toNat

/-- The number of registers `V[0]` to `V[x]`, `x` included (43_index_memory.md R165, R166). -/
def regCount (x : Reg) : Nat := x.val + 1

/-- `V[0]`, ..., `V[x]` in order (R165). -/
def lowRegs (s : State) (x : Reg) : List Byte := s.v.toList.take (regCount x)

/-- The register file with `V[k] <- MEM[I + k]` for `k` from 0 to `x` (R166). -/
def loadedRegs (s : State) (x : Reg) : Vector Byte Config.nreg :=
  Vector.ofFn fun k => if k ≤ x then Memory.read s.mem (dataAddr s + k.val) else s.getV k

/-- The three decimal digits of a byte: hundreds, tens, ones (R164). -/
def decimalDigits (v : Byte) : List Byte :=
  [BitVec.ofNat 8 (v.toNat / 100), BitVec.ofNat 8 (v.toNat / 10 % 10), BitVec.ofNat 8 (v.toNat % 10)]

/-- The address of the glyph of `V[x]`: `5 * V[x]`, exact (R163). -/
def glyphAddr (v : Byte) : Word := BitVec.ofNat 16 (Config.glyphLen * v.toNat)

/-- Whether the register value names a key (45_keypad_timers.md R191). -/
def keyIndexOk (v : Byte) : Bool := v.toNat < Config.nkey

/-- The column of the sprite's origin (44_display.md R182). -/
def originX (s : State) (x : Reg) : Nat := (s.getV x).toNat % Config.dispW

/-- The row of the sprite's origin (R182). -/
def originY (s : State) (y : Reg) : Nat := (s.getV y).toNat % Config.dispH

/-- The sprite rows that lie on the display: only they are read (R182). -/
def spriteRows (s : State) (y : Reg) (n : Nibble) : Nat := min n.toNat (Config.dispH - originY s y)

end Sys2Proof.Machine
end

