-- ==== Sys2Proof/Machine/Flags.lean ====
section
/-! DEFINITION. The flag values of the nine instructions that write `VF` (10_state.md R24). The three logical
operations write 0 (42_register_alu.md R145 to R147). -/

namespace Sys2Proof.Machine

/-- The carry of `a + b`: the exact sum exceeds 255 (42_register_alu.md R148). -/
def carryOut (a b : Byte) : Bool := 255 < a.toNat + b.toNat

/-- No borrow in `a - b`: `b <= a` (R149, R151). -/
def noBorrow (a b : Byte) : Bool := b.toNat ≤ a.toNat

/-- The bit a right shift moves out: bit 0 (R150). -/
def lowBit (a : Byte) : Bool := a.getLsbD 0

/-- The bit a left shift moves out: bit 7 (R152). -/
def highBit (a : Byte) : Bool := a.getLsbD 7

/-- The collision of one sprite bit with one cell (44_display.md R180). -/
def collision (bit cell : Bool) : Bool := bit && cell

end Sys2Proof.Machine
end

