-- ==== Sys2Proof/Machine/Alu.lean ====
section
/-! DEFINITION. Register loads, ALU operations and the random byte (42_register_alu.md). The flag-writing
instructions run their statements in the order R141 gives them, each reading the registers as the one before it
left them. Log entry 11. -/

namespace Sys2Proof.Machine

/-- `LD Vx, nn` (R142). -/
def execLdImm (x : Reg) (nn : Byte) (s : State) : Host.Outcome State Fault Refusal :=
  .next (s.advance.setV x nn)

/-- `ADD Vx, nn` (R143): modulo 256, no flag. -/
def execAddImm (x : Reg) (nn : Byte) (s : State) : Host.Outcome State Fault Refusal :=
  .next (s.advance.setV x (s.getV x + nn))

/-- `LD Vx, Vy` (R144). -/
def execLdReg (x y : Reg) (s : State) : Host.Outcome State Fault Refusal :=
  .next (s.advance.setV x (s.getV y))

/-- `OR Vx, Vy` (R145): the result first, then `VF <- 0`. -/
def execOr (x y : Reg) (s : State) : Host.Outcome State Fault Refusal :=
  .next ((s.advance.setV x (s.getV x ||| s.getV y)).setFlag false)

/-- `AND Vx, Vy` (R146): the result first, then `VF <- 0`. -/
def execAnd (x y : Reg) (s : State) : Host.Outcome State Fault Refusal :=
  .next ((s.advance.setV x (s.getV x &&& s.getV y)).setFlag false)

/-- `XOR Vx, Vy` (R147): the result first, then `VF <- 0`. -/
def execXor (x y : Reg) (s : State) : Host.Outcome State Fault Refusal :=
  .next ((s.advance.setV x (s.getV x ^^^ s.getV y)).setFlag false)

/-- `ADD Vx, Vy` (R148): the sum of the old values, then the flag, then the result. -/
def execAddReg (x y : Reg) (s : State) : Host.Outcome State Fault Refusal :=
  .next ((s.advance.setFlag (carryOut (s.getV x) (s.getV y))).setV x (s.getV x + s.getV y))

/-- `SUB Vx, Vy` (R149): the flag, then the difference of the registers as the flag write left them. -/
def execSub (x y : Reg) (s : State) : Host.Outcome State Fault Refusal :=
  let t := s.advance.setFlag (noBorrow (s.getV x) (s.getV y))
  .next (t.setV x (t.getV x - t.getV y))

/-- `SHR Vx` (R150): the flag, then the shift of the register as the flag write left it. -/
def execShr (x : Reg) (s : State) : Host.Outcome State Fault Refusal :=
  let t := s.advance.setFlag (lowBit (s.getV x))
  .next (t.setV x (t.getV x >>> 1))

/-- `SUBN Vx, Vy` (R151): the flag, then the difference of the registers as the flag write left them. -/
def execSubn (x y : Reg) (s : State) : Host.Outcome State Fault Refusal :=
  let t := s.advance.setFlag (noBorrow (s.getV y) (s.getV x))
  .next (t.setV x (t.getV y - t.getV x))

/-- `SHL Vx` (R152): the flag, then the shift of the register as the flag write left it. -/
def execShl (x : Reg) (s : State) : Host.Outcome State Fault Refusal :=
  let t := s.advance.setFlag (highBit (s.getV x))
  .next (t.setV x (t.getV x <<< 1))

/-- `RND Vx, nn` (R153): the sample of this step, one for each execution. -/
def execRnd (x : Reg) (nn : Byte) (s : State) : Host.Outcome State Fault Refusal :=
  .next (s.takeSample.advance.setV x (s.sample &&& nn))

end Sys2Proof.Machine
end

