-- ==== Sys2Proof/Machine/Display.lean ====
section
/-! DEFINITION. The XOR compositor and the display instructions (44_display.md). -/

namespace Sys2Proof.Machine

/-- What a draw has done so far: the display, and whether a collision has been met. -/
abbrev Canvas := Display × Bool

/-- The compositor on one sprite bit and the cell `k`: the new cell is `old ^ bit`, and the flag is only ever set
(R180, R182). -/
def drawBit (k : Nat) (bit : Bool) (c : Canvas) : Canvas :=
  (Display.setCell c.1 k (Display.cell c.1 k ^^ bit), c.2 || collision bit (Display.cell c.1 k))

/-- Column `col` of a sprite row `b` drawn at column `ox` of row `y`: bit 7 is column 0, and a column at 64 or
beyond is clipped (R182). -/
def drawColumn (ox y : Nat) (b : Byte) (c : Canvas) (col : Nat) : Canvas :=
  if ox + col < Config.dispW then drawBit (cellIndex (ox + col) y) (b.getLsbD (7 - col)) c else c

/-- One sprite row (R182). -/
def drawRow (ox y : Nat) (b : Byte) (c : Canvas) : Canvas := (List.range 8).foldl (drawColumn ox y b) c

/-- The sprite rows one under another, from row `y` on (R182, R185). -/
def drawRows (ox : Nat) : Nat → List Byte → Canvas → Canvas
  | _, [], c => c
  | y, b :: bs, c => drawRows ox (y + 1) bs (drawRow ox y b c)

/-- The sprite of `DRW Vx, Vy, n` composed with the display (R182). -/
def drawSprite (x y : Reg) (n : Nibble) (s : State) : Canvas :=
  drawRows (originX s x) (originY s y) (Memory.readBytes s.mem (dataAddr s) (spriteRows s y n)) (s.disp, false)

/-- `CLS` (R181). -/
def execCls (s : State) : Host.Outcome State Fault Refusal := .next (s.advance.setDisp Display.clear)

/-- `DRW Vx, Vy, n` (R182): origin and rows are read before `VF` is written. -/
def execDrw (x y : Reg) (n : Nibble) (s : State) : Host.Outcome State Fault Refusal :=
  withRange (dataAddr s) (spriteRows s y n) s
    ((s.advance.setDisp (drawSprite x y n s).1).setFlag (drawSprite x y n s).2)

end Sys2Proof.Machine
end

