-- ==== Sys2Proof/Machine/Flow.lean ====
section
/-! DEFINITION. Control transfer (41_flow_and_skip.md). Every meaning takes the state before the step, with `PC` at
the address `a` of the word; where a rule writes `PC` for the address of the next word, that is `a + 2` (R120,
40_fetch_dispatch.md R102). -/

namespace Sys2Proof.Machine

/-- `RET` (R121). -/
def execRet (s : State) : Host.Outcome State Fault Refusal :=
  match s.pop with
  | none => raise (.stackUnderflow s.pc) s
  | some (t, w) => .next (t.setPc w)

/-- `JP nnn` (R122). -/
def execJp (nnn : Lit12) (s : State) : Host.Outcome State Fault Refusal := .next (s.setPc (addrOf nnn))

/-- `CALL nnn` (R123): the pushed value is the address of the word after the `CALL`. -/
def execCall (nnn : Lit12) (s : State) : Host.Outcome State Fault Refusal :=
  match s.push (s.pc + 2) with
  | none => raise (.stackOverflow s.pc) s
  | some t => .next (t.setPc (addrOf nnn))

/-- `SE Vx, nn` (R124). -/
def execSeImm (x : Reg) (nn : Byte) (s : State) : Host.Outcome State Fault Refusal :=
  .next (s.skipIf (s.getV x == nn))

/-- `SNE Vx, nn` (R125). -/
def execSneImm (x : Reg) (nn : Byte) (s : State) : Host.Outcome State Fault Refusal :=
  .next (s.skipIf (s.getV x != nn))

/-- `SE Vx, Vy` (R126). -/
def execSeReg (x y : Reg) (s : State) : Host.Outcome State Fault Refusal :=
  .next (s.skipIf (s.getV x == s.getV y))

/-- `SNE Vx, Vy` (R127). -/
def execSneReg (x y : Reg) (s : State) : Host.Outcome State Fault Refusal :=
  .next (s.skipIf (s.getV x != s.getV y))

/-- `JP V0, nnn` (R128). -/
def execJpV0 (nnn : Lit12) (s : State) : Host.Outcome State Fault Refusal :=
  .next (s.setPc (offsetTarget s nnn))

end Sys2Proof.Machine
end

