-- ==== Sys2Proof/Machine/Index.lean ====
section
/-! DEFINITION. Index register and memory instructions (43_index_memory.md). None of the memory instructions
changes `I` (R167). The range check comes before every write (R160). -/

namespace Sys2Proof.Machine

/-- `LD I, nnn` (R161). -/
def execLdI (nnn : Lit12) (s : State) : Host.Outcome State Fault Refusal := .next (s.advance.setI (addrOf nnn))

/-- `ADD I, Vx` (R162): modulo 65536, no flag. -/
def execAddI (x : Reg) (s : State) : Host.Outcome State Fault Refusal :=
  .next (s.advance.setI (s.i + widen (s.getV x)))

/-- `LD F, Vx` (R163): the whole register value, not its low nibble. -/
def execLdFont (x : Reg) (s : State) : Host.Outcome State Fault Refusal :=
  .next (s.advance.setI (glyphAddr (s.getV x)))

/-- `LD B, Vx` (R164). -/
def execLdBcd (x : Reg) (s : State) : Host.Outcome State Fault Refusal :=
  withRange (dataAddr s) 3 s
    (s.advance.setMem (Memory.writeBytes s.mem (dataAddr s) (decimalDigits (s.getV x))))

/-- `LD [I], Vx` (R165). -/
def execStoreRegs (x : Reg) (s : State) : Host.Outcome State Fault Refusal :=
  withRange (dataAddr s) (regCount x) s
    (s.advance.setMem (Memory.writeBytes s.mem (dataAddr s) (lowRegs s x)))

/-- `LD Vx, [I]` (R166). -/
def execLoadRegs (x : Reg) (s : State) : Host.Outcome State Fault Refusal :=
  withRange (dataAddr s) (regCount x) s { s.advance with v := loadedRegs s x }

end Sys2Proof.Machine
end

