-- ==== Sys2Proof/Machine/Keypad.lean ====
section
/-! DEFINITION. Keypad and timer instructions (45_keypad_timers.md). The core never writes the keypad (R190). -/

namespace Sys2Proof.Machine

/-- The check of the two keypad skips: a register value above 15 is a fault, else the skip on `c` (R191, R192). -/
def keySkip (x : Reg) (c : Bool) (s : State) : Host.Outcome State Fault Refusal :=
  if keyIndexOk (s.getV x) then .next (s.skipIf c) else raise (.keypadIndexOutOfRange (s.getV x)) s

/-- `SKP Vx` (R191). -/
def execSkp (x : Reg) (s : State) : Host.Outcome State Fault Refusal := keySkip x (s.keyAt (s.getV x).toNat) s

/-- `SKNP Vx` (R192). -/
def execSknp (x : Reg) (s : State) : Host.Outcome State Fault Refusal := keySkip x (!s.keyAt (s.getV x).toNat) s

/-- `LD Vx, DT` (R193). -/
def execLdFromDt (x : Reg) (s : State) : Host.Outcome State Fault Refusal := .next (s.advance.setV x s.dt)

/-- The index of a key as a register value, 0 to 15 (R194). -/
def keyByte (k : Reg) : Byte := BitVec.ofNat 8 k.val

/-- `LD Vx, K` (R194): with no key pressed `PC` goes back to this word, and nothing else changes. -/
def execLdKey (x : Reg) (s : State) : Host.Outcome State Fault Refusal :=
  .next (match s.firstKey with
    | some k => s.advance.setV x (keyByte k)
    | none => s)

/-- `LD DT, Vx` (R195). -/
def execLdDt (x : Reg) (s : State) : Host.Outcome State Fault Refusal := .next (s.advance.setDt (s.getV x))

/-- `LD ST, Vx` (R196): `TONE` is not changed. -/
def execLdSt (x : Reg) (s : State) : Host.Outcome State Fault Refusal := .next (s.advance.setSt (s.getV x))

end Sys2Proof.Machine
end

