-- ==== Sys2Proof/Machine/Sequencer.lean ====
section
/-! DEFINITION. The engine around the instructions: fetch, malformed words, the instruction step, the timer update
and the tick (40_fetch_dispatch.md), and the load (70_reset_and_hazards.md). -/

namespace Sys2Proof.Machine

/-- The fetch (R101): the word at `PC`, or the lowest address above 0xFFF that it would have to read. -/
def fetch (s : State) : Except Nat Word :=
  match firstOutOfRange s.pc.toNat Config.ilen with
  | some a => .error a
  | none => .ok (Memory.readWord s.mem s.pc.toNat)

/-- A malformed dispatch (R105): `PC` advances, the word is reported, nothing else changes. The report history is
append-only (60_exceptions.md R208, log entry 9). -/
def execMalformed (w : Word) (s : State) : Host.Outcome State Fault Refusal :=
  .next { s.advance with reports := s.reports ++ [w] }

/-- What dispatch selects for a word: an instruction's meaning or the malformed no-op (R104). -/
def execWord (w : Word) (s : State) : Host.Outcome State Fault Refusal :=
  match decodeWord w with
  | .ok i => exec i s
  | .error _ => execMalformed w s

/-- One instruction step (R100). While `FAULT` is set there is none: the state is frozen (R112). -/
def instrStep (s : State) : Host.Outcome State Fault Refusal :=
  if s.fault.isSome then .next s
  else match fetch s with
    | .error a => raise (.memoryOutOfRange a) s
    | .ok w => execWord w s

/-- The timer update (R108). -/
def timerUpdate (s : State) : State :=
  { s with
    dt := if 0 < s.dt.toNat then s.dt - 1 else s.dt
    st := if 0 < s.st.toNat then s.st - 1 else s.st
    tone := decide (0 < s.st.toNat) }

/-- The end of a tick: the timer update (R107), then, between two ticks, the key states the environment presents
for the next one (R110). -/
def tickEnd (s : State) : State :=
  { timerUpdate s with burst := 0, key := s.nextKeys, keyIn := s.keyIn.tail, ticks := s.ticks + 1 }

/-- What follows a completed instruction step: the next position in the burst, or the end of the tick after its
last step (R39, R107). A fault ends the tick at once, without a timer update, and nothing follows it (R109). -/
def endInstr (s : State) : State :=
  if s.fault.isSome then s
  else if s.burst + 1 < s.ipt then { s with burst := s.burst + 1 }
  else tickEnd s

/-- A step's outcome with what follows the instruction step. -/
def afterInstr : Host.Outcome State Fault Refusal → Host.Outcome State Fault Refusal
  | .next s => .next (endInstr s)
  | .fault f => .fault f
  | .refused r => .refused r

/-- `n` instruction steps of a burst, ending at once at a fault (R107, R109). -/
def burstSteps : Nat → State → Host.Outcome State Fault Refusal
  | 0, s => .next s
  | n + 1, s =>
    match instrStep s with
    | .next t => if t.fault.isSome then .next t else burstSteps n t
    | .fault f => .fault f
    | .refused r => .refused r

/-- One tick as R107 writes it: `IPT` instruction steps, then the timer update unless one of them faulted. The host's
`step` runs the same tick one instruction step at a time. -/
def tick (s : State) : Host.Outcome State Fault Refusal :=
  match burstSteps s.ipt s with
  | .next t => if t.fault.isSome then .next t else .next (tickEnd t)
  | .fault f => .fault f
  | .refused r => .refused r

/-- The load (70_reset_and_hazards.md R232): the font table, then the image from `ENTRY` on; an image longer than
`ROM_MAX` is refused as a whole (R233). `FONT` is the parameter of the machine that is loaded, any 80 bytes; without
a second argument it is R56's table (00_scope.md R8, R234). -/
def load (image : List Byte) (font : Config.Font := Config.fontDefault) : Host.Outcome State Fault Refusal :=
  if Config.romMax < image.length then .refused (.romOversize image.length Config.romMax)
  else .next { State.reset with
    mem := Memory.writeBytes (Memory.writeBytes State.reset.mem 0 font.toList) Config.entry image }

/-- The two bytes of a word stored where the next fetch reads them (R54). -/
def storeFetchWord (s : State) (w : Word) : State :=
  s.setMem (Memory.writeBytes s.mem s.pc.toNat [(bytesOfWord w).1, (bytesOfWord w).2])

end Sys2Proof.Machine
end

