-- ==== Sys2Proof/Machine/Step.lean ====
section
/-! DEFINITION. The host's step: one instruction step and the place it takes in the tick (40_fetch_dispatch.md R100,
R107; log entry 1). -/

namespace Sys2Proof.Machine

/-- One instruction step, then the next position in the burst or the end of the tick. -/
def step (s : State) : Host.Outcome State Fault Refusal := afterInstr (instrStep s)

/-- `s` with the table's word `w` of `nbits` bits stored at `PC`, where `step` fetches its next instruction. -/
def State.withFetchWord (s : State) (nbits w : Nat) : State := storeFetchWord s (tableWord nbits w)

end Sys2Proof.Machine
end

