-- ==== Sys2Proof/Safety.lean ====
section
/-! DEFINITION. The terms claims are made in: the invariant of a run, the faults, PC movements, writes and reads the
rules list instruction by instruction, and the parked state. These are written from the rules' tables, not from the
meanings, so that a statement can hold the two against each other. -/

namespace Sys2Proof.Machine

/-- What every run keeps: the memory is in its canonical form, `PC` is in the range of 10_state.md R28, every live
slot holds an address a `CALL` can push (R28), and the burst position is a position of a tick (R39). -/
structure State.Inv (s : State) : Prop where
  mem_wf : Memory.wf s.mem
  pc_le : s.pc.toNat ≤ 0x10FE
  live_le : ∀ k : Fin Config.stackCap, k.val < s.sp.val → (s.stack.get k).toNat ≤ 0x1000
  ipt_pos : 0 < s.ipt
  burst_lt : s.burst < s.ipt

/-- The fault an instruction raises, by the table of causes (60_exceptions.md R201, R202), or none. -/
def faultOf (i : Instr) (s : State) : Option Fault :=
  match i with
  | .call _ => if s.sp.val = 12 then some (.stackOverflow s.pc) else none
  | .ret _ => if s.sp.val = 0 then some (.stackUnderflow s.pc) else none
  | .drw _ y n =>
    let rows := min n.toNat (32 - (s.getV y).toNat % 32)
    if 0 < rows ∧ 0xFFF < s.i.toNat + rows - 1 then some (.memoryOutOfRange (max s.i.toNat 0x1000)) else none
  | .ldBcd _ => if 0xFFF < s.i.toNat + 2 then some (.memoryOutOfRange (max s.i.toNat 0x1000)) else none
  | .storeRegs x => if 0xFFF < s.i.toNat + x.val then some (.memoryOutOfRange (max s.i.toNat 0x1000)) else none
  | .loadRegs x => if 0xFFF < s.i.toNat + x.val then some (.memoryOutOfRange (max s.i.toNat 0x1000)) else none
  | .skp x => if 15 < (s.getV x).toNat then some (.keypadIndexOutOfRange (s.getV x)) else none
  | .sknp x => if 15 < (s.getV x).toNat then some (.keypadIndexOutOfRange (s.getV x)) else none
  | _ => none

/-- `PC` after an instruction at `a` that does not fault, by 10_state.md R27. -/
def nextPc (i : Instr) (s : State) : Word :=
  match i with
  | .jp nnn => BitVec.ofNat 16 nnn.toNat
  | .call nnn => BitVec.ofNat 16 nnn.toNat
  | .ret _ => s.stack[s.sp.val - 1]?.getD 0
  | .jpV0 nnn => BitVec.ofNat 16 ((s.getV 0).toNat + nnn.toNat)
  | .seImm x nn => if s.getV x = nn then s.pc + 4 else s.pc + 2
  | .sneImm x nn => if s.getV x ≠ nn then s.pc + 4 else s.pc + 2
  | .seReg x y => if s.getV x = s.getV y then s.pc + 4 else s.pc + 2
  | .sneReg x y _ => if s.getV x ≠ s.getV y then s.pc + 4 else s.pc + 2
  | .skp x => if s.key[(s.getV x).toNat]?.getD false = true then s.pc + 4 else s.pc + 2
  | .sknp x => if s.key[(s.getV x).toNat]?.getD false = false then s.pc + 4 else s.pc + 2
  | .ldKey _ => if ∀ k : Reg, s.key.get k = false then s.pc else s.pc + 2
  | _ => s.pc + 2

/-- The instructions that write `VF` as a side effect: exactly nine (10_state.md R24). -/
def writesFlag : Instr → Bool
  | .orReg _ _ | .andReg _ _ | .xorReg _ _ | .addReg _ _ | .sub _ _ | .shr _ _ | .subn _ _ | .shl _ _
  | .drw _ _ _ => true
  | _ => false

/-- The registers an instruction names as destination (files 42, 43 and 45). -/
def destReg (i : Instr) (r : Reg) : Bool :=
  match i with
  | .ldImm x _ | .addImm x _ | .rnd x _ => r == x
  | .ldReg x _ | .orReg x _ | .andReg x _ | .xorReg x _ | .addReg x _ | .sub x _ | .shr x _ | .subn x _
  | .shl x _ => r == x
  | .ldFromDt x | .ldKey x => r == x
  | .loadRegs x => decide (r ≤ x)
  | _ => false

/-- The instructions that write `I` (10_state.md R25). -/
def writesIndex : Instr → Bool
  | .ldI _ | .addI _ | .ldFont _ => true
  | _ => false

/-- The instructions that touch the call stack (10_state.md R29). -/
def usesStack : Instr → Bool
  | .call _ | .ret _ => true
  | _ => false

/-- The instructions that write the display (44_display.md R184). -/
def writesDisplay : Instr → Bool
  | .cls _ | .drw _ _ _ => true
  | _ => false

/-- The instructions whose outcome depends on the keypad (40_fetch_dispatch.md R114). -/
def readsKeys : Instr → Bool
  | .skp _ | .sknp _ | .ldKey _ => true
  | _ => false

/-- The instruction that takes a random sample (R114, 42_register_alu.md R153). -/
def drawsSample : Instr → Bool
  | .rnd _ _ => true
  | _ => false

/-- How many bytes an instruction stores, from the address `dataAddr` on (20_memory.md R61). -/
def storeCount : Instr → Nat
  | .ldBcd _ => 3
  | .storeRegs x => regCount x
  | _ => 0

/-- The outcome with `f` applied to its next state. -/
def mapNext (f : State → State) : Host.Outcome State Fault Refusal → Host.Outcome State Fault Refusal
  | .next s => .next (f s)
  | .fault e => .fault e
  | .refused r => .refused r

/-- The outcome is a next state in which every register `r` holds `val r`, `PC` is the next sequential word, and
everything else, memory included, is as in `s`. -/
def WritesRegs (o : Host.Outcome State Fault Refusal) (s : State) (val : Reg → Byte) : Prop :=
  ∃ t, o = .next t ∧ (∀ r, t.getV r = val r) ∧ t = { s with v := t.v, pc := s.pc + 2 }

/-- The outcome is the fault entry of `f` from `s`: the latch holds `f` and nothing else is written
(60_exceptions.md R203). -/
def TakesFault (o : Host.Outcome State Fault Refusal) (s : State) (f : Fault) : Prop :=
  o = .next { s with fault := some f }

/-- The sprite bit that falls on column `cx`, row `cy` of the display when the bytes `bs` are drawn with their
top-left corner at (`ox`, `oy`), clipped at the edges (44_display.md R182, R185). -/
def spriteBit (ox oy : Nat) (bs : List Byte) (cx cy : Nat) : Bool :=
  decide (ox ≤ cx ∧ cx < ox + 8 ∧ cx < Config.dispW ∧ oy ≤ cy ∧ cy < Config.dispH) &&
    (bs.getD (cy - oy) 0).getLsbD (7 - (cx - ox))

/-- Parked: the word at `PC` is a jump to itself (40_fetch_dispatch.md R113). -/
def State.parked (s : State) : Prop :=
  s.pc.toNat ≤ 0xFFE ∧ Memory.readWord s.mem s.pc.toNat = 0x1000#16 ||| s.pc

end Sys2Proof.Machine
end

