-- ==== Sys2Proof/Certificates/Slice0/Obligations.lean ====
section
/-! DEFINITION. The statements for the provers, as the rules of spec/ give them. A docstring names the rule, and,
where the rule rests on a decision of the spec (Dn of 92_eei_decisions.md) or on a choice of the model, that too. -/

open Sys2Proof Sys2Proof.Machine

/-! ## Encoding (30_encoding.md) -/

/-- Decoding an encoded instruction gives it back, with every operand at every value. The ignored fields of R89 are
included, since the model keeps them as arguments: its own choice, log entry 12. -/
def Obligations.DecodeOfEncodeIsIdentity : Prop := ∀ i : Instr, decodeWord (encode i) = .ok i

/-- A word that decodes is the word of the instruction it decodes to: no bit of it is dropped. That this takes in the
ignored fields, whose every value selects one instruction by R89, is the model's own choice to keep them as arguments
(DESIGN CHOICE, log entry 12). -/
def Obligations.EncodeOfDecodeIsIdentity : Prop :=
  ∀ (w : Word) (i : Instr), decodeWord w = .ok i → encode i = w

/-- R87: the row of the opcode map selects a word exactly when the decoder gives an instruction of that row. -/
def Obligations.OpcodeMapRowSelectsDecodedInstr : Prop :=
  ∀ (w : Word) (i : Instr), w &&& i.row.mask = i.row.fixed ↔ ∃ j, decodeWord w = .ok j ∧ j.row = i.row

/-- R87: the selections of two different rows are disjoint. -/
def Obligations.OpcodeMapRowsAreDisjoint : Prop :=
  ∀ (i j : Instr) (w : Word), w &&& i.row.mask = i.row.fixed → w &&& j.row.mask = j.row.fixed → i.row = j.row

/-- R88: the malformed words are exactly those of the table, by key and sub-selector. -/
def Obligations.MalformedWordsAreTheListedOnes : Prop :=
  ∀ w : Word, decodeWord w = .error (.malformed w) ↔
    (w.toNat / 4096 = 0x0 ∧ w.toNat % 256 ≠ 0xE0 ∧ w.toNat % 256 ≠ 0xEE) ∨
    (w.toNat / 4096 = 0x5 ∧ w.toNat % 16 ≠ 0) ∨
    (w.toNat / 4096 = 0x8 ∧ w.toNat % 16 ∈ [0x8, 0x9, 0xA, 0xB, 0xC, 0xD, 0xF]) ∨
    (w.toNat / 4096 = 0xE ∧ w.toNat % 256 ≠ 0x9E ∧ w.toNat % 256 ≠ 0xA1) ∨
    (w.toNat / 4096 = 0xF ∧
      w.toNat % 256 ∉ [0x07, 0x0A, 0x15, 0x18, 0x1E, 0x29, 0x33, 0x55, 0x65])

/-- Words written out from R85 and R87 decode to the instructions they stand for; bytes go high byte first (R81). -/
def Obligations.SampleWordsDecode : Prop :=
  decodeWord 0xD12F = .ok (.drw 1 2 15) ∧ decodeWord 0x6A3F = .ok (.ldImm 0xA 0x3F) ∧
  decodeWord 0x00E0 = .ok (.cls 0) ∧ decodeWord 0x5AB0 = .ok (.seReg 0xA 0xB) ∧
  decodeWord 0x8ABE = .ok (.shl 0xA 0xB) ∧ decodeWord 0xF165 = .ok (.loadRegs 1) ∧
  decodeWord 0xE19E = .ok (.skp 1) ∧ decodeWord 0xBFFF = .ok (.jpV0 0xFFF) ∧
  decode [0x12, 0x34, 0x56] = .ok (.jp 0x234, [0x56])

/-- R89 (decisions D4, D5): two words whose instructions differ only in ignored fields have the same effect. -/
def Obligations.IgnoredFieldsHaveNoEffect : Prop :=
  ∀ (w w' : Word) (i j : Instr), decodeWord w = .ok i → decodeWord w' = .ok j → i.canonical = j.canonical →
    ∀ s : State, exec i s = exec j s

/-! ## The instruction step and the tick (40_fetch_dispatch.md) -/

/-- R100 to R104, one instruction step being the model's unit (log entry 1): where the two bytes at `PC` decode to `i`,
a step is `i` at this state, before the advance of `PC` (log entry 10), and then the sequencer's `afterInstr`, which
`SequencerAfterAnInstruction` says. -/
def Obligations.StepRunsTheDecodedInstr : Prop :=
  ∀ (s : State) (i : Instr), s.fault = none → s.pc.toNat ≤ 0xFFE →
    decodeWord (Memory.read s.mem s.pc.toNat ++ Memory.read s.mem (s.pc.toNat + 1)) = .ok i →
    step s = afterInstr (exec i s)

/-- R107 to R110 with the burst position of R39: after an instruction that faulted nothing follows; inside a burst
the position moves on; after the last one of a burst the timers are updated once and the next keys presented. Two points are the model's own
choice (DESIGN CHOICE): a fault leaves the burst position where it was (log entry 22), and in a state the spec does
not have, with a position not below `IPT` or with `IPT` = 0, the tick ends (log entry 21). The fields `keyIn` and
`ticks`, from which the next keys come, are the model's own (log entry 5). -/
def Obligations.SequencerAfterAnInstruction : Prop :=
  ∀ t : State,
    (t.fault ≠ none → afterInstr (.next t) = .next t) ∧
    (t.fault = none → t.burst + 1 < t.ipt → afterInstr (.next t) = .next { t with burst := t.burst + 1 }) ∧
    (t.fault = none → t.ipt ≤ t.burst + 1 → afterInstr (.next t) = .next { t with
      burst := 0
      dt := if t.dt = 0 then 0 else t.dt - 1
      st := if t.st = 0 then 0 else t.st - 1
      tone := decide (t.st ≠ 0)
      key := t.nextKeys
      keyIn := t.keyIn.tail
      ticks := t.ticks + 1 })

/-- R105: a malformed word advances `PC` by 2 and is reported; nothing else changes, and no fault is raised. That the
report (R208, decision D17) stands at the end of a history in the state is the model's own choice (DESIGN CHOICE, log
entry 9), which R41 and R208 permit. -/
def Obligations.MalformedWordIsReportedNoOp : Prop :=
  ∀ (s : State) (w : Word), s.fault = none → s.pc.toNat ≤ 0xFFE →
    w = Memory.read s.mem s.pc.toNat ++ Memory.read s.mem (s.pc.toNat + 1) →
    (∀ i, decodeWord w ≠ .ok i) →
    instrStep s = .next { s with pc := s.pc + 2, reports := s.reports ++ [w] }

/-- R101 (decision D7): a fetch past 0xFFF faults with the lowest address above 0xFFF; `PC` is not advanced. The fault
entry is that of R203 (decision D9), in the model a next state with the latch set and nothing else written (DEDUCED,
log entry 6); that the burst position stays is the model's own choice (DESIGN CHOICE, log entry 22). -/
def Obligations.FetchPastTheEndFaults : Prop :=
  ∀ s : State, s.fault = none → 0xFFF ≤ s.pc.toNat →
    TakesFault (step s) s (.memoryOutOfRange (if s.pc.toNat = 0xFFF then 0x1000 else s.pc.toNat))

/-- R112, R204 (decision D9): a faulted core performs no step and no timer update. That `step` and `tick` then answer
the state itself is log entry 6 (DEDUCED). -/
def Obligations.FaultedCoreIsFrozen : Prop :=
  ∀ s : State, s.fault ≠ none → step s = .next s ∧ tick s = .next s

/-- R90, R113: no word and no data ends a run. That a step which faults, and a step of a faulted core, answer a next
state too is the model's form of R203, R112 and R204 (DEDUCED, log entry 6). -/
def Obligations.StepAlwaysAnswersNext : Prop := ∀ s : State, ∃ t, step s = .next t

/-- R28, R30, R39 and the canonical form of memory (log entry 8): every step keeps the invariant, from every state that meets
it. -/
def Obligations.StepKeepsInv : Prop := ∀ s t : State, s.Inv → step s = .next t → t.Inv

/-- The reset state meets the invariant. -/
def Obligations.ResetMeetsInv : Prop := State.reset.Inv

/-- The state after any accepted load, with any `FONT` (R8), meets the invariant. -/
def Obligations.LoadedStateMeetsInv : Prop :=
  ∀ (image : List Byte) (font : Config.Font) (s : State), load image font = .next s → s.Inv

/-- R107, R109 with R39 (a step of the machine is one instruction step and what follows it in the tick: DEDUCED, log
entry 1): from a tick boundary, `IPT` steps of the machine are one tick of R107. The burst position is
0 after the tick of R107, and after the steps as well unless one of them faulted. -/
def Obligations.TickIsBurstThenTimerUpdate : Prop :=
  ∀ s : State, 0 < s.ipt → s.burst = 0 →
    ∃ u, Sys2Proof.core.run s.ipt s = .next u ∧ tick s = .next { u with burst := 0 } ∧
      (u.fault = none → u.burst = 0)

/-- R108: `k` timer updates count each timer down by `k`, stopping at 0, and the tone is on after them exactly when
the sound timer was at least `k`; nothing else changes. -/
def Obligations.TimerUpdatesCountDown : Prop :=
  ∀ (k : Nat) (s : State),
    (timerUpdate^[k] s).dt.toNat = s.dt.toNat - k ∧ (timerUpdate^[k] s).st.toNat = s.st.toNat - k ∧
    (0 < k → (timerUpdate^[k] s).tone = decide (k ≤ s.st.toNat)) ∧
    timerUpdate^[k] s = { s with
      dt := (timerUpdate^[k] s).dt, st := (timerUpdate^[k] s).st, tone := (timerUpdate^[k] s).tone }

/-- R114: the keypad changes nothing in the outcome of an instruction other than `SKP`, `SKNP` and `LD Vx, K`. -/
def Obligations.KeypadMattersOnlyToKeypadInstrs : Prop :=
  ∀ (i : Instr) (s : State) (k : Keypad), readsKeys i = false →
    exec i { s with key := k } = mapNext (fun t => { t with key := k }) (exec i s)

/-- R114: the random input changes nothing in the outcome of an instruction other than `RND`. -/
def Obligations.RandomInputMattersOnlyToRnd : Prop :=
  ∀ (i : Instr) (s : State) (r : List Byte) (d : Nat), drawsSample i = false →
    exec i { s with rndIn := r, draws := d } = mapNext (fun t => { t with rndIn := r, draws := d }) (exec i s)

/-- R113: in a parked state an instruction step changes nothing at all. -/
def Obligations.ParkedStateStaysParked : Prop :=
  ∀ s : State, s.parked → instrStep s = .next s

/-! ## Faults (60_exceptions.md) -/

/-- R203 (decision D9): an instruction that raises a fault writes nothing but the latch; `PC` stays at its word. -/
def Obligations.FaultsArePrecise : Prop :=
  ∀ (i : Instr) (s t : State) (f : Fault), s.fault = none → exec i s = .next t → t.fault = some f →
    t = { s with fault := some f }

/-- R201, R202 (decisions D7, D8, D9): which instruction raises which fault, when, and what it records; all others
raise none. -/
def Obligations.FaultsAreExactlyTheListedOnes : Prop :=
  ∀ (i : Instr) (s : State), s.fault = none → ∃ t, exec i s = .next t ∧ t.fault = faultOf i s

/-! ## What no instruction changes (10_state.md, 20_memory.md, 44_display.md) -/

/-- R27: how each instruction moves `PC` when it does not fault, and the malformed words with it. That `RET` and
`SNE Vx, Vy` do so whatever their ignored fields hold is R89 (decisions D4, D5; log entry 12). -/
def Obligations.PcMovesAsListed : Prop :=
  (∀ (i : Instr) (s t : State), faultOf i s = none → exec i s = .next t → t.pc = nextPc i s) ∧
  (∀ (w : Word) (s t : State), execMalformed w s = .next t → t.pc = s.pc + 2)

/-- R24 and the operands of files 42 to 45: a register changes only where it is a destination, or is `VF` and the
instruction is one of the nine that write the flag. -/
def Obligations.RegisterFrame : Prop :=
  ∀ (i : Instr) (s t : State) (r : Reg), exec i s = .next t → destReg i r = false →
    (r = VF → writesFlag i = false) → t.getV r = s.getV r

/-- R25: `I` is written by `LD I, nnn`, `ADD I, Vx` and `LD F, Vx` and by nothing else. -/
def Obligations.IndexRegisterFrame : Prop :=
  ∀ (i : Instr) (s t : State), exec i s = .next t → writesIndex i = false → t.i = s.i

/-- R29, R30: no instruction other than `CALL` and `RET` touches the call stack; `RET` alters no slot. -/
def Obligations.CallStackFrame : Prop :=
  ∀ (i : Instr) (s t : State), exec i s = .next t →
    (usesStack i = false → t.stack = s.stack ∧ t.sp = s.sp) ∧ (∀ x, i = .ret x → t.stack = s.stack)

/-- R31, R32: no instruction writes `TONE`, `DT` is written by `LD DT, Vx` only and `ST` by `LD ST, Vx` only. -/
def Obligations.TimerFrame : Prop :=
  ∀ (i : Instr) (s t : State), exec i s = .next t →
    t.tone = s.tone ∧ ((∀ x, i ≠ .ldDt x) → t.dt = s.dt) ∧ ((∀ x, i ≠ .ldSt x) → t.st = s.st)

/-- R61: every byte outside the bytes an instruction stores to, from `I` on, reads as before. -/
def Obligations.MemoryFrame : Prop :=
  ∀ (i : Instr) (s t : State) (a : Nat), exec i s = .next t →
    (a < dataAddr s ∨ dataAddr s + storeCount i ≤ a) → Memory.read t.mem a = Memory.read s.mem a

/-- R184: only `CLS` and `DRW` write the display. -/
def Obligations.DisplayFrame : Prop :=
  ∀ (i : Instr) (s t : State), exec i s = .next t → writesDisplay i = false → t.disp = s.disp

/-- R20, R36, R208, R216: no instruction changes the keypad, `IPT`, the burst position, the reports or what the
environment will put in; a `RND` takes exactly one sample and no other instruction takes any. The fields that hold what
the environment will put in are the model's own (log entries 4 and 5). -/
def Obligations.EnvironmentFrame : Prop :=
  ∀ (i : Instr) (s t : State), exec i s = .next t →
    t.key = s.key ∧ t.ipt = s.ipt ∧ t.burst = s.burst ∧ t.reports = s.reports ∧ t.keyIn = s.keyIn ∧
    t.ticks = s.ticks ∧
    (if drawsSample i then t.rndIn = s.rndIn.tail ∧ t.draws = s.draws + 1
      else t.rndIn = s.rndIn ∧ t.draws = s.draws)

/-! ## Control transfer (41_flow_and_skip.md) -/

/-- R122, R128: the two jumps; the sum `V[0] + nnn` is exact and at most 0x10FE. -/
def Obligations.JumpsSetPc : Prop :=
  ∀ (nnn : Lit12) (s : State),
    exec (.jp nnn) s = .next { s with pc := BitVec.ofNat 16 nnn.toNat } ∧
    exec (.jpV0 nnn) s = .next { s with pc := BitVec.ofNat 16 ((s.getV 0).toNat + nnn.toNat) } ∧
    (s.getV 0).toNat + nnn.toNat ≤ 0x10FE

/-- R123 (fault entry: decision D9): `CALL` pushes the address of the next word, or faults with the stack full. -/
def Obligations.CallPushesReturnAddress : Prop :=
  ∀ (nnn : Lit12) (s : State),
    (s.sp.val < 12 → ∃ t, exec (.call nnn) s = .next t ∧ t.sp.val = s.sp.val + 1 ∧
      (∀ k : Fin Config.stackCap, t.stack.get k = if k.val = s.sp.val then s.pc + 2 else s.stack.get k) ∧
      t = { s with sp := t.sp, stack := t.stack, pc := BitVec.ofNat 16 nnn.toNat } ∧
      ∀ a, Memory.read t.mem a = Memory.read s.mem a) ∧
    (s.sp.val = 12 → TakesFault (exec (.call nnn) s) s (.stackOverflow s.pc))

/-- R121 (fault entry: decision D9): `RET` pops into `PC` and leaves every slot, or faults with the stack empty. -/
def Obligations.RetPopsReturnAddress : Prop :=
  ∀ (x : Reg) (s : State),
    (∀ k : Fin Config.stackCap, s.sp.val = k.val + 1 → ∃ t, exec (.ret x) s = .next t ∧ t.sp.val = k.val ∧
      t = { s with sp := t.sp, pc := s.stack.get k } ∧ ∀ a, Memory.read t.mem a = Memory.read s.mem a) ∧
    (s.sp.val = 0 → TakesFault (exec (.ret x) s) s (.stackUnderflow s.pc))

/-- R129: a `CALL` whose target is a `RET` comes back to the word after it in two instruction steps, with the stack
pointer as before and the return address left in its slot. -/
def Obligations.CallThenRetRoundTrip : Prop :=
  ∀ (s : State) (nnn : Lit12) (x : Reg) (h : s.sp.val < Config.stackCap), s.fault = none → s.pc.toNat ≤ 0xFFE →
    decodeWord (Memory.readWord s.mem s.pc.toNat) = .ok (.call nnn) → nnn.toNat ≤ 0xFFE →
    decodeWord (Memory.readWord s.mem nnn.toNat) = .ok (.ret x) →
    ∃ u, instrStep s = .next u ∧
      instrStep u = .next { s with pc := s.pc + 2, stack := s.stack.set s.sp.val (s.pc + 2) h }

/-- R124, R125, R126: the conditional skips change `PC` alone. -/
def Obligations.CompareSkipsMovePc : Prop :=
  ∀ (x y : Reg) (nn : Byte) (s : State),
    exec (.seImm x nn) s = .next { s with pc := if s.getV x = nn then s.pc + 4 else s.pc + 2 } ∧
    exec (.sneImm x nn) s = .next { s with pc := if s.getV x = nn then s.pc + 2 else s.pc + 4 } ∧
    exec (.seReg x y) s = .next { s with pc := if s.getV x = s.getV y then s.pc + 4 else s.pc + 2 }

/-- R127 (decision D5 for `n`): `SNE Vx, Vy` changes `PC` alone, whatever its ignored field holds. -/
def Obligations.SneRegMovesPc : Prop :=
  ∀ (x y : Reg) (n : Nibble) (s : State),
    exec (.sneReg x y n) s = .next { s with pc := if s.getV x = s.getV y then s.pc + 2 else s.pc + 4 }

/-! ## Register loads and ALU (42_register_alu.md) -/

/-- R142, R143, R144: the loads and the immediate add, no flag. -/
def Obligations.LoadsAndImmediateAdd : Prop :=
  ∀ (x y : Reg) (nn : Byte) (s : State),
    WritesRegs (exec (.ldImm x nn) s) s (fun r => if r = x then nn else s.getV r) ∧
    WritesRegs (exec (.addImm x nn) s) s
      (fun r => if r = x then BitVec.ofNat 8 (((s.getV x).toNat + nn.toNat) % 256) else s.getV r) ∧
    WritesRegs (exec (.ldReg x y) s) s (fun r => if r = x then s.getV y else s.getV r)

/-- R145, R146, R147 (order of writes for `x = 15`: R141, decision D6): the result, then `VF` = 0. -/
def Obligations.LogicalOpsClearFlag : Prop :=
  ∀ (x y : Reg) (s : State),
    WritesRegs (exec (.orReg x y) s) s
      (fun r => if r = 15 then 0 else if r = x then s.getV x ||| s.getV y else s.getV r) ∧
    WritesRegs (exec (.andReg x y) s) s
      (fun r => if r = 15 then 0 else if r = x then s.getV x &&& s.getV y else s.getV r) ∧
    WritesRegs (exec (.xorReg x y) s) s
      (fun r => if r = 15 then 0 else if r = x then s.getV x ^^^ s.getV y else s.getV r)

/-- R148 (order of writes for `x = 15`: R141, decision D6): the sum modulo 256, `VF` the carry; with `x = 15` the
result stands in `VF`. -/
def Obligations.AddRegSetsCarry : Prop :=
  ∀ (x y : Reg) (s : State),
    WritesRegs (exec (.addReg x y) s) s (fun r =>
      if r = x then BitVec.ofNat 8 (((s.getV x).toNat + (s.getV y).toNat) % 256)
      else if r = 15 then (if 255 < (s.getV x).toNat + (s.getV y).toNat then 1 else 0)
      else s.getV r)

/-- R149, R151 (R141, decision D6): `VF` = 1 for no borrow, then the difference of the registers as that write left
them: an operand 15 is the new flag. -/
def Obligations.SubtractionsSetNoBorrow : Prop :=
  ∀ (x y : Reg) (s : State),
    (∀ f a b : Nat, f = (if (s.getV y).toNat ≤ (s.getV x).toNat then 1 else 0) →
      a = (if x = 15 then f else (s.getV x).toNat) → b = (if y = 15 then f else (s.getV y).toNat) →
      WritesRegs (exec (.sub x y) s) s (fun r =>
        if r = x then BitVec.ofNat 8 ((a + 256 - b) % 256) else if r = 15 then BitVec.ofNat 8 f else s.getV r)) ∧
    (∀ f a b : Nat, f = (if (s.getV x).toNat ≤ (s.getV y).toNat then 1 else 0) →
      a = (if x = 15 then f else (s.getV x).toNat) → b = (if y = 15 then f else (s.getV y).toNat) →
      WritesRegs (exec (.subn x y) s) s (fun r =>
        if r = x then BitVec.ofNat 8 ((b + 256 - a) % 256) else if r = 15 then BitVec.ofNat 8 f else s.getV r))

/-- R150, R152 (R141, decision D6): `VF` is the bit shifted out, then the register as that write left it is shifted;
`y` has no effect. -/
def Obligations.ShiftsSetShiftedOutBit : Prop :=
  ∀ (x y : Reg) (s : State),
    (∀ f a : Nat, f = (s.getV x).toNat % 2 → a = (if x = 15 then f else (s.getV x).toNat) →
      WritesRegs (exec (.shr x y) s) s (fun r =>
        if r = x then BitVec.ofNat 8 (a / 2) else if r = 15 then BitVec.ofNat 8 f else s.getV r)) ∧
    (∀ f a : Nat, f = (s.getV x).toNat / 128 → a = (if x = 15 then f else (s.getV x).toNat) →
      WritesRegs (exec (.shl x y) s) s (fun r =>
        if r = x then BitVec.ofNat 8 (a * 2 % 256) else if r = 15 then BitVec.ofNat 8 f else s.getV r))

/-- R153 (decision D12): `RND` writes the sample of this step masked with `nn`, whatever the sample is, so no bit
outside `nn`; exactly one sample is used. -/
def Obligations.RndMasksTheSample : Prop :=
  ∀ (x : Reg) (nn : Byte) (s : State), ∃ t, exec (.rnd x nn) s = .next t ∧
    (∀ r, t.getV r = if r = x then s.sample &&& nn else s.getV r) ∧ t.getV x &&& ~~~nn = 0 ∧
    (∀ b bs, s.rndIn = b :: bs → t.getV x = b &&& nn) ∧
    t = { s with v := t.v, pc := s.pc + 2, rndIn := s.rndIn.tail, draws := s.draws + 1 }

/-! ## Index register and memory (43_index_memory.md) -/

/-- R161, R162, R163 (the wrap of `ADD I, Vx`: decision D13): the writes of `I`; the glyph address uses the whole
register value, and no flag is written. -/
def Obligations.IndexRegisterWrites : Prop :=
  ∀ (nnn : Lit12) (x : Reg) (s : State),
    exec (.ldI nnn) s = .next { s with i := BitVec.ofNat 16 nnn.toNat, pc := s.pc + 2 } ∧
    exec (.addI x) s =
      .next { s with i := BitVec.ofNat 16 ((s.i.toNat + (s.getV x).toNat) % 65536), pc := s.pc + 2 } ∧
    exec (.ldFont x) s = .next { s with i := BitVec.ofNat 16 (5 * (s.getV x).toNat), pc := s.pc + 2 }

/-- R164, R167 (`I` unchanged: decision D14): the three decimal digits, and every other byte as before. -/
def Obligations.BcdStoresThreeDigits : Prop :=
  ∀ (x : Reg) (s : State), Memory.wf s.mem → s.i.toNat + 2 ≤ 0xFFF → ∃ t, exec (.ldBcd x) s = .next t ∧
    (Memory.read t.mem (dataAddr s)).toNat = (s.getV x).toNat / 100 ∧
    (Memory.read t.mem (dataAddr s + 1)).toNat = (s.getV x).toNat / 10 % 10 ∧
    (Memory.read t.mem (dataAddr s + 2)).toNat = (s.getV x).toNat % 10 ∧
    (∀ a, a < dataAddr s ∨ dataAddr s + 3 ≤ a → Memory.read t.mem a = Memory.read s.mem a) ∧
    t = { s with mem := t.mem, pc := s.pc + 2 }

/-- R165, R167 (`I` unchanged: decision D14): register `k` at `I + k`, and every other byte as before. -/
def Obligations.StoreRegsWritesEachByte : Prop :=
  ∀ (x : Reg) (s : State), Memory.wf s.mem → s.i.toNat + x.val ≤ 0xFFF → ∃ t, exec (.storeRegs x) s = .next t ∧
    (∀ k : Reg, k ≤ x → Memory.read t.mem (dataAddr s + k.val) = s.getV k) ∧
    (∀ a, a < dataAddr s ∨ dataAddr s + x.val < a → Memory.read t.mem a = Memory.read s.mem a) ∧
    t = { s with mem := t.mem, pc := s.pc + 2 }

/-- R166, R167 (`I` unchanged: decision D14): the bytes from `I` on into `V[0]` to `V[x]`; memory is unchanged. -/
def Obligations.LoadRegsReadsEachByte : Prop :=
  ∀ (x : Reg) (s : State), s.i.toNat + x.val ≤ 0xFFF →
    WritesRegs (exec (.loadRegs x) s) s
      (fun r => if r ≤ x then Memory.read s.mem (dataAddr s + r.val) else s.getV r)

/-- R55, R164, R165, R166, R182 (decisions D7, D9, D15): an access past 0xFFF faults with the lowest such address and
writes nothing: not the bytes in range, and, for a drawn sprite row, neither `VF` nor a cell. -/
def Obligations.DataAccessPastTheEndFaults : Prop :=
  ∀ (x y : Reg) (n : Nibble) (s : State),
    (0xFFF < s.i.toNat + 2 → TakesFault (exec (.ldBcd x) s) s (.memoryOutOfRange (max s.i.toNat 0x1000))) ∧
    (0xFFF < s.i.toNat + x.val →
      TakesFault (exec (.storeRegs x) s) s (.memoryOutOfRange (max s.i.toNat 0x1000)) ∧
      TakesFault (exec (.loadRegs x) s) s (.memoryOutOfRange (max s.i.toNat 0x1000))) ∧
    (∀ rows, rows = min n.toNat (32 - (s.getV y).toNat % 32) → 0 < rows → 0xFFF < s.i.toNat + rows - 1 →
      TakesFault (exec (.drw x y n) s) s (.memoryOutOfRange (max s.i.toNat 0x1000)))

/-- R168: a store of `V[0]` to `V[x]`, then a load with the same `I` and `x`, whatever the registers hold in
between, leaves all of them as they were. -/
def Obligations.StoreThenLoadRestoresRegs : Prop :=
  ∀ (x : Reg) (s t : State) (v : Vector Byte Config.nreg), Memory.wf s.mem → s.i.toNat + x.val ≤ 0xFFF →
    exec (.storeRegs x) s = .next t → ∃ u, exec (.loadRegs x) { t with v := v } = .next u ∧
      ∀ r : Reg, u.getV r = if r ≤ x then s.getV r else v.get r

/-- R59, R65: a store to the next word is what the next fetch reads, the lower register as the high byte. -/
def Obligations.StoredWordIsFetched : Prop :=
  ∀ s t : State, Memory.wf s.mem → s.i = s.pc + 2 → s.pc.toNat + 3 ≤ 0xFFF → exec (.storeRegs 1) s = .next t →
    fetch t = .ok (s.getV 0 ++ s.getV 1)

/-! ## Display (44_display.md) -/

/-- R181: every cell becomes 0; no flag, nothing else. -/
def Obligations.ClsClearsEveryCell : Prop :=
  ∀ (x : Reg) (s : State), ∃ t, exec (.cls x) s = .next t ∧ (∀ k, k < 2048 → Display.cell t.disp k = false) ∧
    t = { s with disp := t.disp, pc := s.pc + 2 }

/-- R182, R185, R167 (decisions D6, D14, D15): each cell is XORed with the sprite bit that falls on it, origin
wrapped and sprite clipped; `VF` says whether a sprite bit met a lit cell; nothing else changes. -/
def Obligations.DrwXorsTheSprite : Prop :=
  ∀ (x y : Reg) (n : Nibble) (s : State) (ox oy rows : Nat) (bs : List Byte),
    ox = (s.getV x).toNat % 64 → oy = (s.getV y).toNat % 32 → rows = min n.toNat (32 - oy) →
    bs = (List.range rows).map (fun r => Memory.read s.mem (s.i.toNat + r)) →
    (rows = 0 ∨ s.i.toNat + rows - 1 ≤ 0xFFF) →
    ∃ t, exec (.drw x y n) s = .next t ∧
      (∀ cx cy, cx < 64 → cy < 32 → Display.cell t.disp (cy * 64 + cx) =
        (Display.cell s.disp (cy * 64 + cx) ^^ spriteBit ox oy bs cx cy)) ∧
      (t.getV 15 = 0 ∨ t.getV 15 = 1) ∧
      (t.getV 15 = 1 ↔ ∃ cx cy, cx < 64 ∧ cy < 32 ∧
        spriteBit ox oy bs cx cy = true ∧ Display.cell s.disp (cy * 64 + cx) = true) ∧
      (∀ r, r ≠ 15 → t.getV r = s.getV r) ∧
      (∀ a, Memory.read t.mem a = Memory.read s.mem a) ∧
      t = { s with v := t.v, disp := t.disp, pc := s.pc + 2 }

/-- R183: the same sprite drawn twice at the same place restores the display, and the second flag is 1 exactly when
the first draw lit a cell. -/
def Obligations.DrwTwiceRestoresDisplay : Prop :=
  ∀ (x y : Reg) (n : Nibble) (s t : State), x ≠ 15 → y ≠ 15 → faultOf (.drw x y n) s = none →
    exec (.drw x y n) s = .next t →
    ∃ u, exec (.drw x y n) t = .next u ∧ u.disp = s.disp ∧ (u.getV 15 = 0 ∨ u.getV 15 = 1) ∧
      (u.getV 15 = 1 ↔ ∃ k < 2048, Display.cell t.disp k = true ∧ Display.cell s.disp k = false)

/-! ## Keypad and timers (45_keypad_timers.md) -/

/-- R191, R192: the keypad skips on the key the register value names. -/
def Obligations.KeypadSkipsMovePc : Prop :=
  ∀ (x k : Reg) (s : State), (s.getV x).toNat = k.val →
    exec (.skp x) s = .next { s with pc := if s.key.get k = true then s.pc + 4 else s.pc + 2 } ∧
    exec (.sknp x) s = .next { s with pc := if s.key.get k = true then s.pc + 2 else s.pc + 4 }

/-- R191, R192 (decisions D8, D9): a register value above 15 is a fault that records it. -/
def Obligations.KeypadIndexAbove15Faults : Prop :=
  ∀ (x : Reg) (s : State), 15 < (s.getV x).toNat →
    TakesFault (exec (.skp x) s) s (.keypadIndexOutOfRange (s.getV x)) ∧
    TakesFault (exec (.sknp x) s) s (.keypadIndexOutOfRange (s.getV x))

/-- R194 (D16): the least pressed key goes to `V[x]`; with no key pressed the word is run again, and nothing
changes. -/
def Obligations.KeyWaitTakesLeastKeyOrRetries : Prop :=
  ∀ (x : Reg) (s : State),
    (∀ k : Reg, s.key.get k = true → (∀ j, j < k → s.key.get j = false) →
      WritesRegs (exec (.ldKey x) s) s (fun r => if r = x then BitVec.ofNat 8 k.val else s.getV r)) ∧
    ((∀ k : Reg, s.key.get k = false) → exec (.ldKey x) s = .next s)

/-- R193, R195, R196: the timer transfers; `TONE` does not change. -/
def Obligations.TimerTransfers : Prop :=
  ∀ (x : Reg) (s : State),
    WritesRegs (exec (.ldFromDt x) s) s (fun r => if r = x then s.dt else s.getV r) ∧
    exec (.ldDt x) s = .next { s with dt := s.getV x, pc := s.pc + 2 } ∧
    exec (.ldSt x) s = .next { s with st := s.getV x, pc := s.pc + 2 }

/-! ## Reset and load (70_reset_and_hazards.md) -/

/-- R42, R231: what reset leaves, with the empty image and the default `FONT`. Only `PC` and the place of the font table
are given by the source. `FAULT` = `None` is decision D9, the bytes of the font are decision D11 (PRESUMED, log entry
3), and every other value, the zeros of memory included, is the spec's own choice of zero, decision D10 (log entries 7
and 8). -/
def Obligations.ResetValues : Prop :=
  (∀ r, State.reset.getV r = 0) ∧ State.reset.i = 0 ∧ State.reset.pc = 0x200 ∧ State.reset.sp = 0 ∧
  (∀ k, State.reset.stack.get k = 0) ∧ State.reset.dt = 0 ∧ State.reset.st = 0 ∧ State.reset.tone = false ∧
  State.reset.fault = none ∧ (∀ k, State.reset.disp.get k = false) ∧ State.reset.burst = 0 ∧
  (∀ k : Fin Config.fontLen, Memory.read State.reset.mem k.val = Config.fontDefault.get k) ∧
  (∀ a, 80 ≤ a → Memory.read State.reset.mem a = 0)

/-- R232: an image of at most 3584 bytes stands verbatim at 0x200, and `FONT` at 0, whatever its 80 bytes are (R8, R234,
decision D11). The zeros in the rest of memory and the rest of the state, which is the reset state, are decision D10
(R42; log entries 7 and 8). -/
def Obligations.LoadPlacesFontAndImage : Prop :=
  ∀ (image : List Byte) (font : Config.Font), image.length ≤ 3584 → ∃ s, load image font = .next s ∧
    (∀ k : Fin Config.fontLen, Memory.read s.mem k.val = font.get k) ∧
    (∀ k, k < image.length → Memory.read s.mem (0x200 + k) = image.getD k 0) ∧
    (∀ a, 80 ≤ a → a < 0x200 ∨ 0x200 + image.length ≤ a → Memory.read s.mem a = 0) ∧
    s = { State.reset with mem := s.mem }

/-- R233: a longer image is refused with its byte count and the capacity, whatever `FONT` is. -/
def Obligations.OversizeImageIsRefused : Prop :=
  ∀ (image : List Byte) (font : Config.Font), 3584 < image.length →
    load image font = .refused (.romOversize image.length 3584)
end

