-- ==== Sys2Proof/Laws/Decode.lean ====
section
/-! SUPPORT. The formats of the encoder as numbers, and the fields the decoder reads, as numbers (30_encoding.md R82,
R85): together they say that the decoder reads back what the encoder laid down. -/

namespace Sys2Proof

@[simp] theorem toNat_regField (r : Reg) : (regField r).toNat = r.val := rfl

/-- Concatenation is a sum. -/
theorem toNat_append_eq {m n : Nat} (a : BitVec m) (b : BitVec n) :
    (a ++ b).toNat = a.toNat * 2 ^ n + b.toNat := by
  rw [BitVec.toNat_append, ← Nat.shiftLeft_add_eq_or_of_lt b.isLt, Nat.shiftLeft_eq]

theorem toNat_formatNNN (k : Nibble) (nnn : Lit12) : (formatNNN k nnn).toNat = k.toNat * 4096 + nnn.toNat :=
  toNat_append_eq k nnn

theorem toNat_formatXNN (k : Nibble) (x : Reg) (nn : Byte) :
    (formatXNN k x nn).toNat = k.toNat * 4096 + x.val * 256 + nn.toNat := by
  have h : (formatXNN k x nn).toNat = (k ++ regField x).toNat * 256 + nn.toNat :=
    toNat_append_eq (k ++ regField x) nn
  rw [h, toNat_append_eq, toNat_regField]
  omega

theorem toNat_formatXYN (k : Nibble) (x y : Reg) (n : Nibble) :
    (formatXYN k x y n).toNat = k.toNat * 4096 + x.val * 256 + y.val * 16 + n.toNat := by
  have h : (formatXYN k x y n).toNat = (k ++ regField x ++ regField y).toNat * 16 + n.toNat :=
    toNat_append_eq (k ++ regField x ++ regField y) n
  have h' : (k ++ regField x ++ regField y).toNat = (k ++ regField x).toNat * 16 + (regField y).toNat :=
    toNat_append_eq (k ++ regField x) (regField y)
  rw [h, h', toNat_append_eq, toNat_regField, toNat_regField]
  omega

variable (w : Word)

theorem toNat_fields_key : (fields w).key.toNat = w.toNat / 4096 := by
  have := w.isLt
  simp only [fields, BitVec.extractLsb'_toNat, Nat.shiftRight_eq_div_pow]
  omega

theorem toNat_fields_nnn : (fields w).nnn.toNat = w.toNat % 4096 := by
  simp [fields, BitVec.extractLsb'_toNat]

theorem toNat_fields_nn : (fields w).nn.toNat = w.toNat % 256 := by
  simp [fields, BitVec.extractLsb'_toNat]

theorem toNat_fields_n : (fields w).n.toNat = w.toNat % 16 := by
  simp [fields, BitVec.extractLsb'_toNat]

theorem val_fields_x : (fields w).x.val = w.toNat / 256 % 16 := by
  show (w.extractLsb' 8 4).toNat = _
  simp [BitVec.extractLsb'_toNat, Nat.shiftRight_eq_div_pow]

theorem val_fields_y : (fields w).y.val = w.toNat / 16 % 16 := by
  show (w.extractLsb' 4 4).toNat = _
  simp [BitVec.extractLsb'_toNat, Nat.shiftRight_eq_div_pow]

/-! The fields of each format. -/

theorem key_formatNNN (k : Nibble) (nnn : Lit12) : (fields (formatNNN k nnn)).key = k := by
  apply BitVec.eq_of_toNat_eq
  have := nnn.isLt
  rw [toNat_fields_key, toNat_formatNNN]
  omega

theorem nnn_formatNNN (k : Nibble) (nnn : Lit12) : (fields (formatNNN k nnn)).nnn = nnn := by
  apply BitVec.eq_of_toNat_eq
  have := nnn.isLt
  rw [toNat_fields_nnn, toNat_formatNNN]
  omega

theorem key_formatXNN (k : Nibble) (x : Reg) (nn : Byte) : (fields (formatXNN k x nn)).key = k := by
  apply BitVec.eq_of_toNat_eq
  have := nn.isLt
  have : x.val < 16 := x.isLt
  rw [toNat_fields_key, toNat_formatXNN]
  omega

theorem nn_formatXNN (k : Nibble) (x : Reg) (nn : Byte) : (fields (formatXNN k x nn)).nn = nn := by
  apply BitVec.eq_of_toNat_eq
  have := nn.isLt
  rw [toNat_fields_nn, toNat_formatXNN]
  omega

theorem x_formatXNN (k : Nibble) (x : Reg) (nn : Byte) : (fields (formatXNN k x nn)).x = x := by
  apply Fin.ext
  have := nn.isLt
  have : x.val < 16 := x.isLt
  rw [val_fields_x, toNat_formatXNN]
  omega

theorem key_formatXYN (k : Nibble) (x y : Reg) (n : Nibble) : (fields (formatXYN k x y n)).key = k := by
  apply BitVec.eq_of_toNat_eq
  have := n.isLt
  have : x.val < 16 := x.isLt
  have : y.val < 16 := y.isLt
  rw [toNat_fields_key, toNat_formatXYN]
  omega

theorem n_formatXYN (k : Nibble) (x y : Reg) (n : Nibble) : (fields (formatXYN k x y n)).n = n := by
  apply BitVec.eq_of_toNat_eq
  have := n.isLt
  rw [toNat_fields_n, toNat_formatXYN]
  omega

theorem x_formatXYN (k : Nibble) (x y : Reg) (n : Nibble) : (fields (formatXYN k x y n)).x = x := by
  apply Fin.ext
  have := n.isLt
  have : x.val < 16 := x.isLt
  have : y.val < 16 := y.isLt
  rw [val_fields_x, toNat_formatXYN]
  omega

theorem y_formatXYN (k : Nibble) (x y : Reg) (n : Nibble) : (fields (formatXYN k x y n)).y = y := by
  apply Fin.ext
  have := n.isLt
  have : x.val < 16 := x.isLt
  have : y.val < 16 := y.isLt
  rw [val_fields_y, toNat_formatXYN]
  omega

end Sys2Proof
end

