-- ==== Sys2Proof/Laws/Memory.lean ====
section
/-! SUPPORT. The laws of memory: read after write, the canonical form kept by every write, and equal readings giving
equal data. -/

namespace Sys2Proof.Machine.Memory

theorem read_cons (a : Nat) (b : Byte) (m : Memory) (c : Nat) (h : ∀ p ∈ m, a < p.1) :
    read (cons a b m) c = if c = a then b else read m c := by
  unfold cons
  split
  · rename_i hb
    by_cases hc : c = a
    · subst hc
      have : read m c = background c := by
        clear hb
        induction m with
        | nil => rfl
        | cons p m ih =>
          have hp := h p (by simp)
          simp only [read]
          rw [if_neg (by omega)]
          exact ih fun q hq => h q (by simp [hq])
      simp [hb, this]
    · simp [hc]
  · rfl

/-- Read after `put` in a memory whose addresses rise. -/
theorem read_put (m : Memory) (a : Nat) (b : Byte) (c : Nat) (h : m.Pairwise fun p q => p.1 < q.1) :
    read (put m a b) c = if c = a then b else read m c := by
  induction m with
  | nil => exact read_cons a b [] c (by simp)
  | cons p m ih =>
    obtain ⟨k, d⟩ := p
    rw [List.pairwise_cons] at h
    simp only [put]
    split
    · rename_i hak
      exact read_cons a b _ c fun q hq => by
        rcases List.mem_cons.1 hq with rfl | hq
        · exact hak
        · exact Nat.lt_trans hak (h.1 q hq)
    · split
      · rename_i hak
        subst hak
        rw [read_cons a b m c h.1]
        simp only [read]
        split <;> rfl
      · rename_i h1 h2
        simp only [read, ih h.2]
        by_cases hck : c = k
        · rw [if_pos hck, if_pos hck, if_neg (by omega)]
        · simp [hck]

/-- Read after write (20_memory.md R53, R63). -/
theorem read_write (m : Memory) (a : Nat) (b : Byte) (c : Nat) (hm : wf m) (ha : a < Config.memSize) :
    read (write m a b) c = if c = a then b else read m c := by
  rw [write, if_pos ha, read_put m a b c hm.1]

theorem read_cons_ne (a : Nat) (b : Byte) (m : Memory) (c : Nat) (h : c ≠ a) : read (cons a b m) c = read m c := by
  unfold cons
  split
  · rfl
  · simp only [read, if_neg h]

/-- A write leaves every other address alone, whatever the memory's form (R53). -/
theorem read_write_ne (m : Memory) (a : Nat) (b : Byte) (c : Nat) (h : c ≠ a) : read (write m a b) c = read m c := by
  unfold write
  split
  · induction m with
    | nil => exact read_cons_ne a b [] c h
    | cons p m ih =>
      obtain ⟨k, d⟩ := p
      simp only [put]
      split
      · exact read_cons_ne a b _ c h
      · split
        · rename_i hak
          rw [read_cons_ne a b m c h]
          simp only [read, if_neg (hak ▸ h : c ≠ k)]
        · simp only [read, ih]
  · rfl

/-- Successive writes leave every address outside their range alone, whatever the memory's form. -/
theorem read_writeBytes_outside (bs : List Byte) (m : Memory) (a c : Nat) (h : c < a ∨ a + bs.length ≤ c) :
    read (writeBytes m a bs) c = read m c := by
  induction bs generalizing m a with
  | nil => rfl
  | cons b bs ih =>
    simp only [List.length_cons] at h
    rw [writeBytes, ih _ _ (by omega), read_write_ne m a b c (by omega)]

theorem mem_put {m : Memory} {a : Nat} {b : Byte} {p : Host.Cell} (h : p ∈ put m a b) :
    p = (a, b) ∧ b ≠ background a ∨ p ∈ m := by
  have hcons : ∀ n : Memory, p ∈ cons a b n → p = (a, b) ∧ b ≠ background a ∨ p ∈ n := by
    intro n hn
    unfold cons at hn
    split at hn
    · exact .inr hn
    · rcases List.mem_cons.1 hn with hn | hn
      · exact .inl ⟨hn, ‹_›⟩
      · exact .inr hn
  induction m with
  | nil => exact hcons [] h
  | cons q m ih =>
    obtain ⟨k, d⟩ := q
    simp only [put] at h
    split at h
    · exact hcons _ h
    · split at h
      · rcases hcons _ h with h | h
        · exact .inl h
        · exact .inr (by simp [h])
      · rcases List.mem_cons.1 h with h | h
        · exact .inr (by simp [h])
        · rcases ih h with h | h
          · exact .inl h
          · exact .inr (by simp [h])

theorem pairwise_cons (m : Memory) (a : Nat) (b : Byte) (h : m.Pairwise fun p q => p.1 < q.1)
    (ha : ∀ p ∈ m, a < p.1) : (cons a b m).Pairwise fun p q => p.1 < q.1 := by
  unfold cons
  split
  · exact h
  · exact List.pairwise_cons.2 ⟨ha, h⟩

theorem pairwise_put (m : Memory) (a : Nat) (b : Byte) (h : m.Pairwise fun p q => p.1 < q.1) :
    (put m a b).Pairwise fun p q => p.1 < q.1 := by
  induction m with
  | nil => exact pairwise_cons [] a b h (by simp)
  | cons q m ih =>
    obtain ⟨k, d⟩ := q
    have h' := List.pairwise_cons.1 h
    simp only [put]
    split
    · rename_i hak
      exact pairwise_cons _ a b h fun p hp => by
        rcases List.mem_cons.1 hp with rfl | hp
        · exact hak
        · exact Nat.lt_trans hak (h'.1 p hp)
    · split
      · rename_i hak
        subst hak
        exact pairwise_cons m a b h'.2 h'.1
      · rename_i h1 h2
        refine List.pairwise_cons.2 ⟨fun p hp => ?_, ih h'.2⟩
        rcases mem_put hp with ⟨rfl, _⟩ | hp
        · show k < a
          omega
        · exact h'.1 p hp

/-- Every write keeps the canonical form. -/
theorem wf_write (m : Memory) (a : Nat) (b : Byte) (hm : wf m) : wf (write m a b) := by
  unfold write
  split
  · rename_i ha
    refine ⟨pairwise_put m a b hm.1, fun c hc => ?_⟩
    rcases mem_put hc with ⟨rfl, hb⟩ | hc
    · exact ⟨ha, hb⟩
    · exact hm.2 c hc
  · exact hm

theorem wf_nil : wf [] := ⟨List.Pairwise.nil, by simp⟩

/-- Successive writes keep the canonical form. -/
theorem wf_writeBytes (bs : List Byte) (m : Memory) (a : Nat) (hm : wf m) : wf (writeBytes m a bs) := by
  induction bs generalizing m a with
  | nil => exact hm
  | cons b bs ih => exact ih _ _ (wf_write m a b hm)

/-- Reading after successive writes: the written byte inside the range, the old byte outside. -/
theorem read_writeBytes (bs : List Byte) (m : Memory) (a c : Nat) (hm : wf m)
    (ha : a + bs.length ≤ Config.memSize) :
    read (writeBytes m a bs) c = if a ≤ c ∧ c < a + bs.length then bs.getD (c - a) 0 else read m c := by
  induction bs generalizing m a with
  | nil => simp [writeBytes]
  | cons b bs ih =>
    simp only [List.length_cons] at ha ⊢
    rw [writeBytes, ih _ _ (wf_write m a b hm) (by omega), read_write m a b c hm (by omega)]
    by_cases h1 : c = a
    · subst h1
      simp
    · by_cases h2 : a + 1 ≤ c ∧ c < a + 1 + bs.length
      · rw [if_pos h2, if_pos (by omega)]
        obtain ⟨d, rfl⟩ : ∃ d, c = a + 1 + d := ⟨c - (a + 1), by omega⟩
        have e1 : a + 1 + d - (a + 1) = d := by omega
        have e2 : a + 1 + d - a = d + 1 := by omega
        rw [e1, e2, List.getD_cons_succ]
      · rw [if_neg h2, if_neg h1, if_neg (by omega)]

theorem read_of_not_mem (m : Memory) (a : Nat) (h : ∀ c ∈ m, c.1 ≠ a) : read m a = background a := by
  induction m with
  | nil => rfl
  | cons p m ih =>
    obtain ⟨k, d⟩ := p
    simp only [read]
    rw [if_neg (fun e => h (k, d) (by simp) e.symm)]
    exact ih fun c hc => h c (by simp [hc])

/-- Two memories in canonical form that read alike are equal data. -/
theorem ext_of_wf (m n : Memory) (hm : wf m) (hn : wf n) (h : ∀ a, read m a = read n a) : m = n := by
  induction m generalizing n with
  | nil =>
    cases n with
    | nil => rfl
    | cons q n =>
      obtain ⟨k, d⟩ := q
      exact absurd (by have := h k; simp only [read, if_pos] at this; exact this.symm) (hn.2 (k, d) (by simp)).2
  | cons p m ih =>
    obtain ⟨k, d⟩ := p
    have hm' := List.pairwise_cons.1 hm.1
    have hd := (hm.2 (k, d) (by simp)).2
    cases n with
    | nil => exact absurd (by have := h k; simp only [read, if_pos] at this; exact this) hd
    | cons q n =>
      obtain ⟨l, e⟩ := q
      have hn' := List.pairwise_cons.1 hn.1
      have he := (hn.2 (l, e) (by simp)).2
      have hbelow : ∀ (r : Memory) (a : Nat), (∀ c ∈ r, a < c.1) → read r a = background a :=
        fun r a hr => read_of_not_mem r a fun c hc => by have := hr c hc; omega
      have hkl : k = l := by
        rcases Nat.lt_trichotomy k l with hlt | heq | hgt
        · have h1 := h k
          rw [hbelow ((l, e) :: n) k (fun c hc => by
            rcases List.mem_cons.1 hc with rfl | hc
            · exact hlt
            · exact Nat.lt_trans hlt (hn'.1 c hc))] at h1
          simp only [read, if_pos] at h1
          exact absurd h1 hd
        · exact heq
        · have h1 := h l
          rw [hbelow ((k, d) :: m) l (fun c hc => by
            rcases List.mem_cons.1 hc with rfl | hc
            · exact hgt
            · exact Nat.lt_trans hgt (hm'.1 c hc))] at h1
          simp only [read, if_pos] at h1
          exact absurd h1.symm he
      subst hkl
      have hde : d = e := by simpa [read] using h k
      subst hde
      congr 1
      refine ih n ⟨hm'.2, fun c hc => hm.2 c (by simp [hc])⟩ ⟨hn'.2, fun c hc => hn.2 c (by simp [hc])⟩ fun a => ?_
      by_cases hak : a = k
      · subst hak
        rw [hbelow m a hm'.1, hbelow n a hn'.1]
      · simpa [read, hak] using h a

end Sys2Proof.Machine.Memory
end

