-- ==== Sys2Proof/Laws/Ops.lean ====
section
/-! SUPPORT. What each shared operation can do, said once: range check, fault entry, stack, step. -/

namespace Sys2Proof.Machine

/-- No address is out of range exactly when nothing is accessed or the last address is at most 0xFFF
(20_memory.md R55). -/
theorem firstOutOfRange_eq_none (base count : Nat) :
    firstOutOfRange base count = none ↔ count = 0 ∨ base + count ≤ 4096 := by
  simp only [firstOutOfRange, Config.memSize]
  split <;> simp_all

/-- The address the range check gives is accessed, lies above 0xFFF, and every lower accessed address is in range. -/
theorem firstOutOfRange_eq_some {base count a : Nat} (h : firstOutOfRange base count = some a) :
    a = max base 4096 ∧ 0 < count ∧ 4096 < base + count := by
  simp only [firstOutOfRange, Config.memSize] at h
  split at h
  · cases h
  · rename_i hn
    cases h
    refine ⟨rfl, ?_, ?_⟩ <;> omega

theorem withRange_of_in (base count : Nat) (s t : State) (h : count = 0 ∨ base + count ≤ 4096) :
    withRange base count s t = .next t := by
  rw [withRange, (firstOutOfRange_eq_none base count).2 h]

theorem withRange_of_out (base count : Nat) (s t : State) (h0 : 0 < count) (h : 4096 < base + count) :
    withRange base count s t = .next { s with fault := some (.memoryOutOfRange (max base 4096)) } := by
  rw [withRange, firstOutOfRange, if_neg (by simp only [Config.memSize]; omega)]
  rfl

/-- All that a range-checked instruction can do: complete, or take the fault of the lowest address above 0xFFF. -/
theorem withRange_cases {base count : Nat} {s t u : State} (h : withRange base count s t = .next u) :
    (u = t ∧ (count = 0 ∨ base + count ≤ 4096)) ∨
    (u = { s with fault := some (.memoryOutOfRange (max base 4096)) } ∧ 0 < count ∧ 4096 < base + count) := by
  by_cases hr : count = 0 ∨ base + count ≤ 4096
  · rw [withRange_of_in base count s t hr] at h
    cases h
    exact .inl ⟨rfl, hr⟩
  · rw [withRange_of_out base count s t (by omega) (by omega)] at h
    cases h
    exact .inr ⟨rfl, by omega, by omega⟩

/-- A push onto a stack with a free slot (10_state.md R30). -/
theorem State.push_of_free (s : State) (w : Word) (h : s.sp.val < Config.stackCap) :
    s.push w = some { s with stack := s.stack.set s.sp.val w h, sp := ⟨s.sp.val + 1, by omega⟩ } := by
  rw [State.push, dif_pos h]

theorem State.push_of_full (s : State) (w : Word) (h : s.sp.val = Config.stackCap) : s.push w = none := by
  rw [State.push, dif_neg (Nat.lt_irrefl _ |> fun h' => by rw [h]; exact h')]

/-- A pop from a stack that holds a return address (R30). -/
theorem State.pop_of_held (s : State) (k : Fin Config.stackCap) (h : s.sp.val = k.val + 1) :
    s.pop = some ({ s with sp := ⟨k.val, by omega⟩ }, s.stack.get k) := by
  have hk : s.sp.val - 1 = k.val := by omega
  rw [State.pop, dif_pos (by omega)]
  simp only [hk, Vector.get_eq_getElem]

theorem State.pop_of_empty (s : State) (h : s.sp.val = 0) : s.pop = none := by
  rw [State.pop, dif_neg (by omega)]

/-- `exec` answers a next state for every instruction in every state (30_encoding.md R90). -/
theorem withRange_next (base count : Nat) (s t : State) : ∃ u, withRange base count s t = .next u := by
  unfold withRange
  split
  · exact ⟨_, rfl⟩
  · exact ⟨t, rfl⟩

theorem keySkip_next (x : Reg) (c : Bool) (s : State) : ∃ u, keySkip x c s = .next u := by
  unfold keySkip
  split <;> exact ⟨_, rfl⟩

/-- All that a keypad skip can do (45_keypad_timers.md R191, R192). -/
theorem keySkip_cases {x : Reg} {c : Bool} {s t : State} (h : keySkip x c s = .next t) :
    (t = s.skipIf c ∧ (s.getV x).toNat < 16) ∨
    (t = { s with fault := some (.keypadIndexOutOfRange (s.getV x)) } ∧ 15 < (s.getV x).toNat) := by
  unfold keySkip at h
  split at h
  · rename_i hk
    cases h
    exact .inl ⟨rfl, by simpa [keyIndexOk] using hk⟩
  · rename_i hk
    cases h
    have : ¬ (s.getV x).toNat < 16 := by simpa [keyIndexOk] using hk
    exact .inr ⟨rfl, by omega⟩

/-- All that a fetch can do (40_fetch_dispatch.md R101). -/
theorem fetch_of_in (s : State) (h : s.pc.toNat ≤ 0xFFE) : fetch s = .ok (Memory.readWord s.mem s.pc.toNat) := by
  rw [fetch, (firstOutOfRange_eq_none _ _).2 (by simp only [Config.ilen]; omega)]

theorem fetch_of_out (s : State) (h : 0xFFF ≤ s.pc.toNat) : fetch s = .error (max s.pc.toNat 4096) := by
  rw [fetch, firstOutOfRange, if_neg (by simp only [Config.ilen, Config.memSize]; omega)]

end Sys2Proof.Machine
end

