-- ==== Sys2Proof/Laws/Display.lean ====
section
/-! SUPPORT. What the XOR compositor does to each cell and to the collision flag (44_display.md R180, R182). -/

namespace Sys2Proof.Machine

/-- A cell in front of and behind a write. -/
theorem Display.cell_setCell (d : Display) (k j : Nat) (b : Bool) (hk : k < Config.dispCells) :
    Display.cell (Display.setCell d k b) j = if j = k then b else Display.cell d j := by
  unfold Display.cell Display.setCell
  simp only [Vector.getElem?_setIfInBounds]
  by_cases h : j = k
  · subst h
    simp [hk]
  · rw [if_neg (fun e => h e.symm), if_neg h]

/-- Two displays whose cells are alike are one. -/
theorem Display.ext_cell (d e : Display) (h : ∀ k, k < Config.dispCells → Display.cell d k = Display.cell e k) :
    d = e := by
  apply Vector.ext
  intro k hk
  have := h k hk
  simpa [Display.cell, hk] using this

/-- Cells of different columns or rows are different. -/
theorem cellIndex_inj {x y x' y' : Nat} (hx : x < 64) (hx' : x' < 64) :
    cellIndex x y = cellIndex x' y' ↔ x = x' ∧ y = y' := by
  simp only [cellIndex, Config.dispW]
  omega

theorem cellIndex_lt {x y : Nat} (hx : x < 64) (hy : y < 32) : cellIndex x y < Config.dispCells := by
  simp only [cellIndex, Config.dispW, Config.dispCells]
  omega

/-- The bits of a row drawn so far: `b` at column `ox` of row `y`, its first `n` columns. -/
def rowBit (ox y n : Nat) (b : Byte) (cx cy : Nat) : Bool :=
  decide (cy = y ∧ ox ≤ cx ∧ cx < ox + n ∧ cx < 64) && b.getLsbD (7 - (cx - ox))

/-- `c'` is `c` with the bits `f` composed: each cell XORed, and the flag also set where a bit met a lit cell. -/
structure Composed (f : Nat → Nat → Bool) (c c' : Canvas) : Prop where
  cell : ∀ cx cy, cx < 64 → cy < 32 →
    Display.cell c'.1 (cellIndex cx cy) = (Display.cell c.1 (cellIndex cx cy) ^^ f cx cy)
  hit : c'.2 = true ↔ c.2 = true ∨ ∃ cx cy, cx < 64 ∧ cy < 32 ∧ f cx cy = true ∧
    Display.cell c.1 (cellIndex cx cy) = true

theorem Composed.refl (c : Canvas) : Composed (fun _ _ => false) c c := by
  constructor
  · intros; simp
  · simp

theorem Composed.congr {f g : Nat → Nat → Bool} {c c' : Canvas} (h : Composed f c c')
    (hfg : ∀ cx cy, cx < 64 → cy < 32 → f cx cy = g cx cy) : Composed g c c' := by
  constructor
  · intro cx cy hx hy
    rw [h.cell cx cy hx hy, hfg cx cy hx hy]
  · rw [h.hit]
    constructor
    · rintro (h | ⟨cx, cy, hx, hy, hf, hd⟩)
      · exact .inl h
      · exact .inr ⟨cx, cy, hx, hy, by rw [← hfg cx cy hx hy]; exact hf, hd⟩
    · rintro (h | ⟨cx, cy, hx, hy, hf, hd⟩)
      · exact .inl h
      · exact .inr ⟨cx, cy, hx, hy, by rw [hfg cx cy hx hy]; exact hf, hd⟩

/-- Bits on different cells compose one after the other as all at once. -/
theorem Composed.trans {f g : Nat → Nat → Bool} {c c' c'' : Canvas} (h : Composed f c c') (h' : Composed g c' c'')
    (hd : ∀ cx cy, f cx cy = true → g cx cy = false) : Composed (fun cx cy => f cx cy || g cx cy) c c'' := by
  constructor
  · intro cx cy hx hy
    rw [h'.cell cx cy hx hy, h.cell cx cy hx hy]
    have := hd cx cy
    cases hf : f cx cy <;> cases hg : g cx cy <;> simp_all
  · rw [h'.hit, h.hit]
    constructor
    · rintro ((h0 | ⟨cx, cy, hx, hy, hf, hc⟩) | ⟨cx, cy, hx, hy, hg, hc⟩)
      · exact .inl h0
      · exact .inr ⟨cx, cy, hx, hy, by simp [hf], hc⟩
      · refine .inr ⟨cx, cy, hx, hy, by simp [hg], ?_⟩
        rw [h.cell cx cy hx hy] at hc
        have := hd cx cy
        cases hf : f cx cy <;> simp_all
    · rintro (h0 | ⟨cx, cy, hx, hy, hfg, hc⟩)
      · exact .inl (.inl h0)
      · rcases Bool.or_eq_true_iff.1 hfg with hf | hg
        · exact .inl (.inr ⟨cx, cy, hx, hy, hf, hc⟩)
        · refine .inr ⟨cx, cy, hx, hy, hg, ?_⟩
          rw [h.cell cx cy hx hy]
          have := hd cx cy
          cases hf : f cx cy <;> simp_all

/-- One sprite bit on one cell of the display. -/
theorem drawBit_composed (x y : Nat) (bit : Bool) (c : Canvas) (hx : x < 64) (hy : y < 32) :
    Composed (fun cx cy => decide (cx = x ∧ cy = y) && bit) c (drawBit (cellIndex x y) bit c) := by
  constructor
  · intro cx cy hcx hcy
    simp only [drawBit]
    rw [Display.cell_setCell _ _ _ _ (cellIndex_lt hx hy)]
    by_cases h : cx = x ∧ cy = y
    · obtain ⟨rfl, rfl⟩ := h
      simp
    · rw [if_neg (by rw [cellIndex_inj hcx hx]; exact h)]
      simp [h]
  · simp only [drawBit, collision, Bool.or_eq_true, Bool.and_eq_true, decide_eq_true_eq]
    constructor
    · rintro (h | ⟨h1, h2⟩)
      · exact .inl h
      · exact .inr ⟨x, y, hx, hy, ⟨⟨rfl, rfl⟩, h1⟩, h2⟩
    · rintro (h | ⟨cx, cy, _, _, ⟨⟨rfl, rfl⟩, h1⟩, h2⟩)
      · exact .inl h
      · exact .inr ⟨h1, h2⟩

/-- The first `n` columns of one sprite row. -/
theorem drawRow_composed_upto (ox y : Nat) (b : Byte) (c : Canvas) (n : Nat) (hy : y < 32) :
    Composed (rowBit ox y n b) c ((List.range n).foldl (drawColumn ox y b) c) := by
  induction n with
  | zero =>
    refine (Composed.refl c).congr fun cx cy _ _ => ?_
    simp only [rowBit, Nat.add_zero]
    rw [decide_eq_false (by omega)]
    rfl
  | succ n ih =>
    rw [List.range_succ, List.foldl_append]
    simp only [List.foldl_cons, List.foldl_nil]
    by_cases hc : ox + n < 64
    · rw [drawColumn, if_pos hc]
      refine (ih.trans (drawBit_composed (ox + n) y _ _ hc hy) ?_).congr ?_
      · intro cx cy h
        simp only [rowBit, Bool.and_eq_true, decide_eq_true_eq] at h
        rw [decide_eq_false (by omega)]
        rfl
      · intro cx cy hx _
        simp only [rowBit]
        by_cases h1 : cx = ox + n ∧ cy = y
        · obtain ⟨rfl, rfl⟩ := h1
          simp [hx]
        · by_cases h2 : cy = y ∧ ox ≤ cx ∧ cx < ox + n ∧ cx < 64
          · rw [decide_eq_true h2, decide_eq_false h1, decide_eq_true (by omega)]
            simp
          · rw [decide_eq_false h2, decide_eq_false h1, decide_eq_false (by omega)]
            simp
    · rw [drawColumn, if_neg hc]
      refine ih.congr fun cx cy hx _ => ?_
      simp only [rowBit]
      congr 2
      rw [eq_iff_iff]
      omega

/-- One sprite row. -/
theorem drawRow_composed (ox y : Nat) (b : Byte) (c : Canvas) (hy : y < 32) :
    Composed (rowBit ox y 8 b) c (drawRow ox y b c) := drawRow_composed_upto ox y b c 8 hy

/-- All that a draw does: the sprite's bits composed with the display, cell by cell. -/
theorem drawRows_composed (ox : Nat) (bs : List Byte) (oy : Nat) (c : Canvas) (h : oy + bs.length ≤ 32) :
    Composed (spriteBit ox oy bs) c (drawRows ox oy bs c) := by
  induction bs generalizing oy c with
  | nil =>
    refine (Composed.refl c).congr fun cx cy _ _ => ?_
    simp [spriteBit]
  | cons b bs ih =>
    simp only [List.length_cons] at h
    rw [drawRows]
    refine ((drawRow_composed ox oy b c (by omega)).trans (ih (oy + 1) _ (by omega)) ?_).congr ?_
    · intro cx cy hr
      simp only [rowBit, Bool.and_eq_true, decide_eq_true_eq] at hr
      simp only [spriteBit]
      rw [decide_eq_false (by omega)]
      rfl
    · intro cx cy hx hy
      simp only [rowBit, spriteBit, Config.dispW, Config.dispH]
      by_cases h1 : cy = oy
      · subst h1
        rw [decide_eq_false (p := ox ≤ cx ∧ cx < ox + 8 ∧ cx < 64 ∧ cy + 1 ≤ cy ∧ cy < 32) (by omega)]
        simp only [Nat.sub_self, List.getD_cons_zero, Bool.false_and, Bool.or_false]
        congr 2
        rw [eq_iff_iff]
        exact ⟨fun h' => ⟨h'.2.1, h'.2.2.1, h'.2.2.2, Nat.le_refl cy, hy⟩,
          fun h' => ⟨trivial, h'.1, h'.2.1, h'.2.2.1⟩⟩
      · rw [decide_eq_false (p := cy = oy ∧ ox ≤ cx ∧ cx < ox + 8 ∧ cx < 64) (by omega)]
        simp only [Bool.false_and, Bool.false_or]
        by_cases h2 : oy < cy
        · obtain ⟨d, rfl⟩ : ∃ d, cy = oy + 1 + d := ⟨cy - (oy + 1), by omega⟩
          have e1 : oy + 1 + d - (oy + 1) = d := by omega
          have e2 : oy + 1 + d - oy = d + 1 := by omega
          rw [e1, e2, List.getD_cons_succ]
          congr 2
          rw [eq_iff_iff]
          omega
        · rw [decide_eq_false (by omega), decide_eq_false (by omega)]
          rfl

end Sys2Proof.Machine
end

