-- ==== Sys2Proof/Laws/Operands.lean ====
section
/-! SUPPORT. What each operand form and each flag computation gives, in the spec's arithmetic. -/

namespace Sys2Proof.Machine

@[simp] theorem toNat_addrOf (nnn : Lit12) : (addrOf nnn).toNat = nnn.toNat := by
  have := nnn.isLt
  simp only [addrOf, BitVec.truncate_eq_setWidth, BitVec.toNat_setWidth]
  omega

theorem addrOf_eq_ofNat (nnn : Lit12) : addrOf nnn = BitVec.ofNat 16 nnn.toNat := by
  apply BitVec.eq_of_toNat_eq
  have := nnn.isLt
  simp only [toNat_addrOf, BitVec.toNat_ofNat]
  omega

@[simp] theorem toNat_widen (b : Byte) : (widen b).toNat = b.toNat := by
  have := b.isLt
  simp only [widen, BitVec.truncate_eq_setWidth, BitVec.toNat_setWidth]
  omega

/-- The target of the jump with offset is the exact sum (41_flow_and_skip.md R128). -/
theorem toNat_offsetTarget (s : State) (nnn : Lit12) :
    (offsetTarget s nnn).toNat = (s.getV 0).toNat + nnn.toNat := by
  have := (s.getV 0).isLt
  have := nnn.isLt
  rw [offsetTarget, BitVec.toNat_add, toNat_widen, toNat_addrOf]
  omega

/-- The glyph address is exact (43_index_memory.md R163). -/
theorem toNat_glyphAddr (v : Byte) : (glyphAddr v).toNat = 5 * v.toNat := by
  have := v.isLt
  simp only [glyphAddr, Config.glyphLen, BitVec.toNat_ofNat]
  omega

@[simp] theorem length_lowRegs (s : State) (x : Reg) : (lowRegs s x).length = x.val + 1 := by
  have := x.isLt
  simp only [Config.nreg] at this
  simp only [lowRegs, regCount, List.length_take, Vector.length_toList, Config.nreg]
  omega

/-- Register `k` is entry `k` of the registers stored (R165). -/
theorem getD_lowRegs (s : State) (x k : Reg) (h : k ≤ x) : (lowRegs s x).getD k.val 0 = s.getV k := by
  have hk : k.val < (lowRegs s x).length := by
    rw [length_lowRegs]
    exact Nat.lt_succ_of_le h
  rw [List.getD_eq_getElem _ _ hk]
  simp [lowRegs, State.getV, Vector.get_eq_getElem]

/-- The register file after a block load (R166). -/
theorem get_loadedRegs (s : State) (x r : Reg) :
    (loadedRegs s x).get r = if r ≤ x then Memory.read s.mem (dataAddr s + r.val) else s.getV r := by
  simp [loadedRegs, Vector.get_eq_getElem]

theorem length_decimalDigits (v : Byte) : (decimalDigits v).length = 3 := rfl

theorem boolByte_lowBit (b : Byte) : boolByte (lowBit b) = BitVec.ofNat 8 (b.toNat % 2) := by
  revert b
  decide +kernel

theorem boolByte_highBit (b : Byte) : boolByte (highBit b) = BitVec.ofNat 8 (b.toNat / 128) := by
  revert b
  decide +kernel

theorem boolByte_noBorrow (a b : Byte) :
    boolByte (noBorrow a b) = BitVec.ofNat 8 (if b.toNat ≤ a.toNat then 1 else 0) := by
  by_cases h : b.toNat ≤ a.toNat <;> simp [boolByte, noBorrow, h]

theorem boolByte_carryOut (a b : Byte) :
    boolByte (carryOut a b) = if 255 < a.toNat + b.toNat then 1 else 0 := by
  by_cases h : 255 < a.toNat + b.toNat <;> simp [boolByte, carryOut, h]

/-- A register value names a key exactly when it is at most 15 (45_keypad_timers.md R191). -/
theorem keyIndexOk_iff (v : Byte) : keyIndexOk v = true ↔ v.toNat ≤ 15 := by
  simp only [keyIndexOk, Config.nkey, decide_eq_true_eq]
  omega

theorem keyAt_eq_get (s : State) (k : Reg) : s.keyAt k.val = s.key.get k := by
  simp [State.keyAt, Vector.get_eq_getElem]

/-- The key scan finds the least pressed key (R194). -/
theorem firstKey_eq_some (s : State) (k : Reg) (hk : s.key.get k = true)
    (hl : ∀ j, j < k → s.key.get j = false) : s.firstKey = some k := by
  unfold State.firstKey
  rw [List.find?_eq_some_iff_getElem]
  refine ⟨hk, k.val, by simp, by simp, fun j hj => ?_⟩
  simp only [List.getElem_finRange, Bool.not_eq_eq_eq_not, Bool.not_true]
  exact hl _ (by simpa [Fin.lt_def] using hj)

theorem firstKey_eq_none (s : State) (h : ∀ k : Reg, s.key.get k = false) : s.firstKey = none := by
  unfold State.firstKey
  rw [List.find?_eq_none]
  intro k _
  simp [h k]

/-- The key scan finds nothing only when no key is pressed (R194). -/
theorem firstKey_eq_none_iff (s : State) : s.firstKey = none ↔ ∀ k : Reg, s.key.get k = false := by
  refine ⟨fun h k => ?_, firstKey_eq_none s⟩
  unfold State.firstKey at h
  rw [List.find?_eq_none] at h
  simpa using h k (List.mem_finRange k)

end Sys2Proof.Machine
end

