-- ==== Sys2Proof/Laws/PerInstr.lean ====
section
/-! SUPPORT. The family OpcodeRow: the word of an instruction is selected by the instruction's row of the opcode map
(30_encoding.md R87), one lemma per constructor. -/

namespace Sys2Proof.Laws.OpcodeRow

/-- The row of the opcode map selects the instruction's word: `W & mask == match` (R87). -/
def Statement (i : Instr) : Prop := i.row.selects (encode i) = true

/-- The bits of three fields side by side. -/
theorem getLsbD_append3 {l m n : Nat} (a : BitVec l) (b : BitVec m) (c : BitVec n) (i : Nat) :
    (a ++ b ++ c).getLsbD i =
      if i < n then c.getLsbD i else if i - n < m then b.getLsbD (i - n) else a.getLsbD (i - n - m) := by
  simp only [BitVec.getLsbD_append]

/-- A word of format `NNN` under a mask of the key alone. -/
theorem selects_NNN (k : Nibble) (nnn : Lit12) :
    OpcodeRow.selects ⟨0xF000, k ++ 0x000#12⟩ (formatNNN k nnn) = true := by
  simp only [OpcodeRow.selects, beq_iff_eq]
  apply BitVec.eq_of_getLsbD_eq
  intro i hi
  have h1 : (formatNNN k nnn).getLsbD i = _ := BitVec.getLsbD_append
  have h2 : (k ++ 0x000#12 : BitVec 16).getLsbD i = _ := BitVec.getLsbD_append
  rw [BitVec.getLsbD_and, h1, h2]
  interval_cases i <;> simp

/-- A word of format `XNN` under a mask of the key alone. -/
theorem selects_XNN (k : Nibble) (x : Reg) (nn : Byte) :
    OpcodeRow.selects ⟨0xF000, k ++ 0x000#12⟩ (formatXNN k x nn) = true := by
  simp only [OpcodeRow.selects, beq_iff_eq]
  apply BitVec.eq_of_getLsbD_eq
  intro i hi
  have h1 : (formatXNN k x nn).getLsbD i = _ := getLsbD_append3 k (regField x) nn i
  have h2 : (k ++ 0x000#12 : BitVec 16).getLsbD i = _ := BitVec.getLsbD_append
  rw [BitVec.getLsbD_and, h1, h2]
  interval_cases i <;> simp

/-- A word of format `XNN` under a mask of the key and `nn`. -/
theorem selects_XNN_nn (k : Nibble) (x : Reg) (nn : Byte) :
    OpcodeRow.selects ⟨0xF0FF, k ++ 0x0#4 ++ nn⟩ (formatXNN k x nn) = true := by
  simp only [OpcodeRow.selects, beq_iff_eq]
  apply BitVec.eq_of_getLsbD_eq
  intro i hi
  have h1 : (formatXNN k x nn).getLsbD i = _ := getLsbD_append3 k (regField x) nn i
  have h2 : (k ++ 0x0#4 ++ nn : BitVec 16).getLsbD i = _ := getLsbD_append3 k 0x0#4 nn i
  rw [BitVec.getLsbD_and, h1, h2]
  interval_cases i <;> simp

/-- A word of format `XYN` under a mask of the key alone. -/
theorem selects_XYN (k : Nibble) (x y : Reg) (n : Nibble) :
    OpcodeRow.selects ⟨0xF000, k ++ 0x000#12⟩ (formatXYN k x y n) = true := by
  simp only [OpcodeRow.selects, beq_iff_eq]
  apply BitVec.eq_of_getLsbD_eq
  intro i hi
  have h1 : (formatXYN k x y n).getLsbD i = _ := getLsbD_append3 (k ++ regField x) (regField y) n i
  have h2 : (k ++ 0x000#12 : BitVec 16).getLsbD i = _ := BitVec.getLsbD_append
  have h3 : (k ++ regField x).getLsbD (i - 4 - 4) = _ := BitVec.getLsbD_append
  rw [BitVec.getLsbD_and, h1, h2, h3]
  interval_cases i <;> simp

/-- A word of format `XYN` under a mask of the key and `n`. -/
theorem selects_XYN_n (k : Nibble) (x y : Reg) (n : Nibble) :
    OpcodeRow.selects ⟨0xF00F, k ++ 0x00#8 ++ n⟩ (formatXYN k x y n) = true := by
  simp only [OpcodeRow.selects, beq_iff_eq]
  apply BitVec.eq_of_getLsbD_eq
  intro i hi
  have h1 : (formatXYN k x y n).getLsbD i = _ := getLsbD_append3 (k ++ regField x) (regField y) n i
  have h2 : (k ++ 0x00#8 ++ n : BitVec 16).getLsbD i = _ := getLsbD_append3 k 0x00#8 n i
  have h3 : (k ++ regField x).getLsbD (i - 4 - 4) = _ := BitVec.getLsbD_append
  rw [BitVec.getLsbD_and, h1, h2, h3]
  interval_cases i <;> simp

theorem cls (x : Reg) : Statement (.cls x) := selects_XNN_nn 0x0 x 0xE0
theorem ret (x : Reg) : Statement (.ret x) := selects_XNN_nn 0x0 x 0xEE
theorem jp (nnn : Lit12) : Statement (.jp nnn) := selects_NNN 0x1 nnn
theorem call (nnn : Lit12) : Statement (.call nnn) := selects_NNN 0x2 nnn
theorem seImm (x : Reg) (nn : Byte) : Statement (.seImm x nn) := selects_XNN 0x3 x nn
theorem sneImm (x : Reg) (nn : Byte) : Statement (.sneImm x nn) := selects_XNN 0x4 x nn
theorem seReg (x y : Reg) : Statement (.seReg x y) := selects_XYN_n 0x5 x y 0x0
theorem ldImm (x : Reg) (nn : Byte) : Statement (.ldImm x nn) := selects_XNN 0x6 x nn
theorem addImm (x : Reg) (nn : Byte) : Statement (.addImm x nn) := selects_XNN 0x7 x nn
theorem ldReg (x y : Reg) : Statement (.ldReg x y) := selects_XYN_n 0x8 x y 0x0
theorem orReg (x y : Reg) : Statement (.orReg x y) := selects_XYN_n 0x8 x y 0x1
theorem andReg (x y : Reg) : Statement (.andReg x y) := selects_XYN_n 0x8 x y 0x2
theorem xorReg (x y : Reg) : Statement (.xorReg x y) := selects_XYN_n 0x8 x y 0x3
theorem addReg (x y : Reg) : Statement (.addReg x y) := selects_XYN_n 0x8 x y 0x4
theorem sub (x y : Reg) : Statement (.sub x y) := selects_XYN_n 0x8 x y 0x5
theorem shr (x y : Reg) : Statement (.shr x y) := selects_XYN_n 0x8 x y 0x6
theorem subn (x y : Reg) : Statement (.subn x y) := selects_XYN_n 0x8 x y 0x7
theorem shl (x y : Reg) : Statement (.shl x y) := selects_XYN_n 0x8 x y 0xE
theorem sneReg (x y : Reg) (n : Nibble) : Statement (.sneReg x y n) := selects_XYN 0x9 x y n
theorem ldI (nnn : Lit12) : Statement (.ldI nnn) := selects_NNN 0xA nnn
theorem jpV0 (nnn : Lit12) : Statement (.jpV0 nnn) := selects_NNN 0xB nnn
theorem rnd (x : Reg) (nn : Byte) : Statement (.rnd x nn) := selects_XNN 0xC x nn
theorem drw (x y : Reg) (n : Nibble) : Statement (.drw x y n) := selects_XYN 0xD x y n
theorem skp (x : Reg) : Statement (.skp x) := selects_XNN_nn 0xE x 0x9E
theorem sknp (x : Reg) : Statement (.sknp x) := selects_XNN_nn 0xE x 0xA1
theorem ldFromDt (x : Reg) : Statement (.ldFromDt x) := selects_XNN_nn 0xF x 0x07
theorem ldKey (x : Reg) : Statement (.ldKey x) := selects_XNN_nn 0xF x 0x0A
theorem ldDt (x : Reg) : Statement (.ldDt x) := selects_XNN_nn 0xF x 0x15
theorem ldSt (x : Reg) : Statement (.ldSt x) := selects_XNN_nn 0xF x 0x18
theorem addI (x : Reg) : Statement (.addI x) := selects_XNN_nn 0xF x 0x1E
theorem ldFont (x : Reg) : Statement (.ldFont x) := selects_XNN_nn 0xF x 0x29
theorem ldBcd (x : Reg) : Statement (.ldBcd x) := selects_XNN_nn 0xF x 0x33
theorem storeRegs (x : Reg) : Statement (.storeRegs x) := selects_XNN_nn 0xF x 0x55
theorem loadRegs (x : Reg) : Statement (.loadRegs x) := selects_XNN_nn 0xF x 0x65

end Sys2Proof.Laws.OpcodeRow
end

