-- ==== Sys2Proof/Tests/Slice0.lean ====
section
/-! SUPPORT. Tests of single steps against the vectors of 95_test_vectors.md (their ids stand in the docstrings;
the expected values are the spec's), and for every statement with hypotheses a witness that meets them all. -/

namespace Sys2Proof.Tests

open Sys2Proof Sys2Proof.Machine

/-! ## Well-formed instructions (30_encoding.md R89) -/

theorem test_wellFormed_refuses_ignored_fields :
    Instr.wellFormed (.cls 3) = false ∧ Instr.wellFormed (.ret 7) = false ∧ Instr.wellFormed (.shr 1 2) = false ∧
    Instr.wellFormed (.shl 1 2) = false ∧ Instr.wellFormed (.sneReg 1 2 5) = false := by decide

theorem test_wellFormed_accepts_canonical :
    Instr.wellFormed (.cls 0) = true ∧ Instr.wellFormed (.ret 0) = true ∧ Instr.wellFormed (.shr 15 0) = true ∧
    Instr.wellFormed (.shl 15 0) = true ∧ Instr.wellFormed (.sneReg 15 15 0) = true ∧
    Instr.wellFormed (.drw 15 15 15) = true := by decide

/-! ## Decoding: a word for every constructor, written out from the formats of R85 and the map of R87 -/

/-- T-30-03, T-30-04, T-41-03, T-41-07: keys 0x0, 0x1, 0x2, 0xB; the binary words spell the fields out. -/
theorem test_decode_flow :
    decodeWord 0b0000_0000_1110_0000 = .ok (.cls 0) ∧ decodeWord 0x0AE0 = .ok (.cls 0xA) ∧
    decodeWord 0b0000_0000_1110_1110 = .ok (.ret 0) ∧ decodeWord 0x07EE = .ok (.ret 7) ∧
    decodeWord 0b0001_0010_0011_0100 = .ok (.jp 0x234) ∧ decodeWord 0b0010_1010_1011_1100 = .ok (.call 0xABC) ∧
    decodeWord 0b1011_1111_1111_1111 = .ok (.jpV0 0xFFF) := by decide

/-- T-30-07, T-30-09: keys 0x3, 0x4, 0x5, 0x9. -/
theorem test_decode_skips :
    decodeWord 0b0011_0001_0000_0100 = .ok (.seImm 1 4) ∧ decodeWord 0b0100_0010_0000_0111 = .ok (.sneImm 2 7) ∧
    decodeWord 0b0101_1010_1011_0000 = .ok (.seReg 0xA 0xB) ∧
    decodeWord 0b1001_1010_1011_0111 = .ok (.sneReg 0xA 0xB 7) := by decide

/-- T-30-02, T-30-11: keys 0x6, 0x7, 0xC and the nine rows of key 0x8. -/
theorem test_decode_alu :
    decodeWord 0b0110_1010_0011_1111 = .ok (.ldImm 0xA 0x3F) ∧ decodeWord 0b0111_0001_1111_1110 = .ok (.addImm 1 0xFE) ∧
    decodeWord 0b1000_1010_1011_0000 = .ok (.ldReg 0xA 0xB) ∧ decodeWord 0b1000_1010_1011_0001 = .ok (.orReg 0xA 0xB) ∧
    decodeWord 0b1000_1010_1011_0010 = .ok (.andReg 0xA 0xB) ∧ decodeWord 0b1000_1010_1011_0011 = .ok (.xorReg 0xA 0xB) ∧
    decodeWord 0b1000_1010_1011_0100 = .ok (.addReg 0xA 0xB) ∧ decodeWord 0b1000_1010_1011_0101 = .ok (.sub 0xA 0xB) ∧
    decodeWord 0b1000_1010_1011_0110 = .ok (.shr 0xA 0xB) ∧ decodeWord 0b1000_1010_1011_0111 = .ok (.subn 0xA 0xB) ∧
    decodeWord 0b1000_1010_1011_1110 = .ok (.shl 0xA 0xB) ∧ decodeWord 0b1100_0011_0000_1111 = .ok (.rnd 3 0x0F) := by
  decide

/-- T-30-15: key 0xA and the memory rows of key 0xF. -/
theorem test_decode_index_memory :
    decodeWord 0b1010_0011_0000_0001 = .ok (.ldI 0x301) ∧ decodeWord 0b1111_0010_0001_1110 = .ok (.addI 2) ∧
    decodeWord 0b1111_0001_0010_1001 = .ok (.ldFont 1) ∧ decodeWord 0b1111_1000_0011_0011 = .ok (.ldBcd 8) ∧
    decodeWord 0b1111_0010_0101_0101 = .ok (.storeRegs 2) ∧ decodeWord 0b1111_0001_0110_0101 = .ok (.loadRegs 1) := by
  decide

/-- T-30-01, T-30-13: keys 0xD and 0xE and the keypad and timer rows of key 0xF. -/
theorem test_decode_display_keypad_timers :
    decodeWord 0b1101_0001_0010_1111 = .ok (.drw 1 2 15) ∧ decodeWord 0b1110_0001_1001_1110 = .ok (.skp 1) ∧
    decodeWord 0b1110_0100_1010_0001 = .ok (.sknp 4) ∧ decodeWord 0b1111_0011_0000_0111 = .ok (.ldFromDt 3) ∧
    decodeWord 0b1111_0101_0000_1010 = .ok (.ldKey 5) ∧ decodeWord 0b1111_0110_0001_0101 = .ok (.ldDt 6) ∧
    decodeWord 0b1111_0001_0001_1000 = .ok (.ldSt 1) := by decide

/-- T-30-05, T-30-06, T-30-08, T-30-10, T-30-12, T-30-14, T-30-16, T-30-17: rejected by name. -/
theorem test_decode_malformed :
    decodeWord 0x00E1 = .error (.malformed 0x00E1) ∧ decodeWord 0x0000 = .error (.malformed 0x0000) ∧
    decodeWord 0x5AB1 = .error (.malformed 0x5AB1) ∧ decodeWord 0x8AB8 = .error (.malformed 0x8AB8) ∧
    decodeWord 0x8ABF = .error (.malformed 0x8ABF) ∧ decodeWord 0xE19F = .error (.malformed 0xE19F) ∧
    decodeWord 0xF166 = .error (.malformed 0xF166) ∧ decodeWord 0xFFFF = .error (.malformed 0xFFFF) := by decide

/-- T-30-01: the decoder's fields. -/
theorem test_fields : fields 0xD12F = ⟨0xD12F, 0xD, 0x12F, 0x2F, 0xF, 1, 2⟩ := by decide

/-- R81: the first byte is the high one; fewer than two bytes are no word. -/
theorem test_decode_bytes :
    decode [0x6A, 0x3F, 0x12] = .ok (.ldImm 0xA 0x3F, [0x12]) ∧ decode [0x6A] = .error .truncated ∧
    decodeTableWord 16 0x6A3F = some (.ldImm 0xA 0x3F) ∧ decodeTableWord 16 0x8AB8 = none := by decide

/-! ## Single steps -/

/-- The reset state with some registers set. -/
def regs (l : List (Reg × Byte)) : State := l.foldl (fun s p => s.setV p.1 p.2) State.reset

/-- `s` with bytes stored from an address on. -/
def withBytes (s : State) (a : Nat) (bs : List Byte) : State := s.setMem (Memory.writeBytes s.mem a bs)

/-- `s` with the keys of a list pressed. -/
def withKeys (s : State) (l : List Nat) : State :=
  { s with key := l.foldl (fun k j => k.setIfInBounds j true) s.key }

/-- `s` with cells of the display lit, each given by column and row. -/
def withLit (s : State) (l : List (Nat × Nat)) : State :=
  s.setDisp (l.foldl (fun d c => Display.setCell d (cellIndex c.1 c.2) true) s.disp)

/-- One step of the word `w`, placed at `PC`, and what is looked at after it. -/
def after {α : Type} (w : Nat) (s : State) (f : State → α) : Option α :=
  match step (s.withFetchWord 16 w) with
  | .next t => some (f t)
  | _ => none

/-- The lit cells among some. -/
def lit (t : State) (l : List (Nat × Nat)) : List Bool := l.map fun c => Display.cell t.disp (cellIndex c.1 c.2)

/-- T-40-F1: the fetch is big-endian. -/
theorem test_fetch_big_endian :
    (match step (withBytes State.reset 0x200 [0x12, 0x34]) with | .next t => some t.pc | _ => none) = some 0x234 := by
  decide

/-- T-40-F2: an odd `PC` fetches. -/
theorem test_fetch_odd : after 0x6A3F ({ State.reset with pc := 0x201 }) (fun t => (t.getV 0xA, t.pc)) =
    some (0x3F, 0x203) := by decide

/-- T-40-F5, T-40-F6: the fetch faults. -/
theorem test_fetch_past_end :
    after 0 ({ State.reset with pc := 0xFFF }) (fun t => (t.fault, t.pc)) =
      some (some (.memoryOutOfRange 0x1000), 0xFFF) ∧
    after 0 ({ State.reset with pc := 0x10FE }) (fun t => (t.fault, t.pc)) =
      some (some (.memoryOutOfRange 0x10FE), 0x10FE) := by decide

/-- T-40-02, T-40-03, T-40-04: the timer update, with the tone from the value before it. -/
theorem test_timerUpdate :
    (timerUpdate { State.reset with st := 2 }).tone = true ∧ (timerUpdate { State.reset with st := 1 }).st = 0 ∧
    (timerUpdate { State.reset with st := 1, tone := true }).tone = true ∧
    (timerUpdate { State.reset with tone := true }).tone = false ∧ (timerUpdate State.reset).dt = 0 := by decide

/-- P7 at `IPT` = 1: the tick ends after the step, and its timer update follows. -/
theorem test_tick_end : after 0xF018 ({ regs [(0, 2)] with ipt := 1 }) (fun t => (t.st, t.tone, t.burst, t.ticks)) =
    some (1, true, 0, 1) := by decide

/-- T-41-01 and T-41-02. -/
theorem test_ret :
    after 0x00EE ({ State.reset with pc := 0x212, sp := 1, stack := State.reset.stack.set 0 0x206 })
      (fun t => (t.pc, t.sp, t.stack.get 0)) = some (0x206, 0, 0x206) ∧
    after 0x00EE State.reset (fun t => (t.pc, t.fault)) = some (0x200, some (.stackUnderflow 0x200)) := by decide

/-- T-41-06: an odd target is accepted. -/
theorem test_jp : after 0x1203 State.reset (fun t => t.pc) = some 0x203 := by decide

/-- T-41-08 and T-41-09. -/
theorem test_call :
    after 0x2300 ({ State.reset with pc := 0x2F0, sp := 11 }) (fun t => (t.pc, t.sp, t.stack.get 11)) =
      some (0x300, 12, 0x2F2) ∧
    after 0x2300 ({ State.reset with pc := 0x2F0, sp := 12 }) (fun t => (t.pc, t.sp, t.fault)) =
      some (0x2F0, 12, some (.stackOverflow 0x2F0)) := by decide

/-- T-41-10, T-41-11, T-41-13, T-41-14. -/
theorem test_skips_immediate :
    after 0x3100 State.reset (fun t => t.pc) = some 0x204 ∧ after 0x3100 (regs [(1, 4)]) (fun t => t.pc) = some 0x202 ∧
    after 0x4207 (regs [(2, 7)]) (fun t => t.pc) = some 0x202 ∧
    after 0x4208 (regs [(2, 7)]) (fun t => t.pc) = some 0x204 := by decide

/-- T-41-15, T-41-16, T-41-20, T-41-21. -/
theorem test_skips_registers :
    after 0x5340 (regs [(3, 9), (4, 9)]) (fun t => t.pc) = some 0x204 ∧
    after 0x5340 (regs [(3, 9), (4, 8)]) (fun t => t.pc) = some 0x202 ∧
    after 0x9010 (regs [(0, 2), (1, 2)]) (fun t => t.pc) = some 0x202 ∧
    after 0x9015 (regs [(0, 1), (1, 2)]) (fun t => t.pc) = some 0x204 := by decide

/-- T-41-24 and T-41-25. -/
theorem test_jpV0 :
    after 0xBFFF (regs [(0, 0xFF)]) (fun t => t.pc) = some 0x10FE ∧
    after 0xB210 (regs [(2, 0x40)]) (fun t => t.pc) = some 0x210 := by decide

/-- T-42-01, T-42-03, T-42-06. -/
theorem test_loads_and_addImm :
    after 0x6A3F State.reset (fun t => (t.getV 0xA, t.pc)) = some (0x3F, 0x202) ∧
    after 0x7102 (regs [(1, 0xFF), (15, 9)]) (fun t => (t.getV 1, t.getV 15)) = some (1, 9) ∧
    after 0x8120 (regs [(2, 0x5A)]) (fun t => t.getV 1) = some 0x5A := by decide

/-- T-42-08 and T-42-09: the flag overwrites the result, and an old `VF` is an operand. -/
theorem test_or :
    after 0x8F21 (regs [(15, 0xF0), (2, 0x0F)]) (fun t => t.getV 15) = some 0 ∧
    after 0x81F1 (regs [(1, 0xF0), (15, 0x0F)]) (fun t => (t.getV 1, t.getV 15)) = some (0xFF, 0) := by decide

/-- T-42-10, T-42-11. -/
theorem test_and_xor :
    after 0x8122 (regs [(1, 0xFC), (2, 0x3F), (15, 1)]) (fun t => (t.getV 1, t.getV 15)) = some (0x3C, 0) ∧
    after 0x8123 (regs [(1, 0xFF), (2, 0x0F), (15, 1)]) (fun t => (t.getV 1, t.getV 15)) = some (0xF0, 0) := by decide

/-- T-42-15 and T-42-17: the carry, and the result in `VF` when it is the destination. -/
theorem test_addReg :
    after 0x8124 (regs [(1, 0xC8), (2, 0x38)]) (fun t => (t.getV 1, t.getV 15)) = some (0, 1) ∧
    after 0x8F14 (regs [(15, 0xC8), (1, 0x64)]) (fun t => t.getV 15) = some 0x2C := by decide

/-- T-42-22 and T-42-25: equal operands do not borrow; the flag stands in `VF` before the subtraction. -/
theorem test_sub :
    after 0x8125 (regs [(1, 7), (2, 7)]) (fun t => (t.getV 1, t.getV 15)) = some (0, 1) ∧
    after 0x81F5 (regs [(1, 5), (15, 3)]) (fun t => (t.getV 1, t.getV 15)) = some (4, 1) := by decide

/-- T-42-32 and T-42-33. -/
theorem test_subn :
    after 0x8127 (regs [(1, 0xFA), (2, 0x0A), (15, 1)]) (fun t => (t.getV 1, t.getV 15)) = some (0x10, 0) ∧
    after 0x8F17 (regs [(15, 3), (1, 5)]) (fun t => t.getV 15) = some 4 := by decide

/-- T-42-28 and T-42-30. -/
theorem test_shr :
    after 0x8126 (regs [(1, 0x80), (2, 0xFF), (15, 1)]) (fun t => (t.getV 1, t.getV 2, t.getV 15)) =
      some (0x40, 0xFF, 0) ∧
    after 0x8F06 (regs [(15, 5)]) (fun t => t.getV 15) = some 0 := by decide

/-- T-42-35 and T-42-38. -/
theorem test_shl :
    after 0x810E (regs [(1, 0xC1)]) (fun t => (t.getV 1, t.getV 15)) = some (0x82, 1) ∧
    after 0x8F0E (regs [(15, 0x81)]) (fun t => t.getV 15) = some 2 := by decide

/-- T-42-40: the sample the environment has ready is masked, and one is taken. -/
theorem test_rnd : after 0xC30F ({ State.reset with rndIn := [0xA7, 0x11] }) (fun t => (t.getV 3, t.rndIn)) =
    some (7, [0x11]) := by decide

/-- T-43-01, T-43-04, T-43-06. -/
theorem test_index_writes :
    after 0xA300 ({ State.reset with i := 0xFFFF }) (fun t => t.i) = some 0x300 ∧
    after 0xF21E ({ regs [(2, 2)] with i := 0xFFFF }) (fun t => t.i) = some 1 ∧
    after 0xF129 (regs [(1, 0xFF)]) (fun t => t.i) = some 0x4FB := by decide

/-- T-43-10 and T-43-12. -/
theorem test_bcd :
    after 0xF033 (withBytes ({ regs [(0, 7)] with i := 0x300 }) 0x300 [9, 9, 9])
      (fun t => (Memory.readBytes t.mem 0x300 3, t.i)) = some ([0, 0, 7], 0x300) ∧
    after 0xF033 ({ regs [(0, 0x64)] with i := 0xFFE }) (fun t => (t.fault, Memory.read t.mem 0xFFE, t.pc)) =
      some (some (.memoryOutOfRange 0x1000), 0, 0x200) := by decide

/-- T-43-13 and T-43-15. -/
theorem test_storeRegs :
    after 0xF255 ({ regs [(0, 1), (1, 2), (2, 3), (3, 4)] with i := 0x300 })
      (fun t => (Memory.readBytes t.mem 0x300 4, t.i)) = some ([1, 2, 3, 0], 0x300) ∧
    after 0xF155 ({ regs [(0, 0xAA), (1, 0xBB)] with i := 0xFFF }) (fun t => (t.fault, Memory.read t.mem 0xFFF)) =
      some (some (.memoryOutOfRange 0x1000), 0) := by decide

/-- T-43-17 and the first glyph of T-43-18. -/
theorem test_loadRegs :
    after 0xF265 (withBytes ({ regs [(3, 0x77)] with i := 0x300 }) 0x300 [2, 3, 4, 5])
      (fun t => (t.getV 0, t.getV 1, t.getV 2, t.getV 3)) = some (2, 3, 4, 0x77) ∧
    after 0xF565 State.reset (fun t => (t.v.toList.take 6)) = some [0xF0, 0x90, 0x90, 0x90, 0xF0, 0x20] := by decide

/-- T-44-01: three lit cells go out. -/
theorem test_cls : after 0x00E0 (withLit State.reset [(0, 0), (63, 31), (5, 7)])
    (fun t => lit t [(0, 0), (63, 31), (5, 7)]) = some [false, false, false] := by decide +kernel

/-- T-44-09: the XOR and the collision. -/
theorem test_drw_collision :
    after 0xD011 (withLit (withBytes ({ regs [(0, 4), (1, 4)] with i := 0x300 }) 0x300 [0x90]) [(4, 4), (5, 4)])
      (fun t => (lit t [(4, 4), (5, 4), (6, 4), (7, 4)], t.getV 15)) = some ([false, true, false, true], 1) := by
  decide +kernel

/-- T-44-06 and T-44-03: the origin wraps, the sprite is clipped. -/
theorem test_drw_wrap_and_clip :
    after 0xD011 (withBytes ({ regs [(0, 67), (1, 34)] with i := 0x300 }) 0x300 [0xC0])
      (fun t => (lit t [(3, 2), (4, 2), (5, 2)], t.getV 15)) = some ([true, true, false], 0) ∧
    after 0xD012 (withBytes ({ regs [(0, 62), (1, 31)] with i := 0x20C }) 0x20C [0xFF, 0xFF])
      (fun t => lit t [(62, 31), (63, 31), (0, 31), (62, 0), (0, 0)]) = some [true, true, false, false, false] := by
  decide +kernel

/-- T-45-01, T-45-02, T-45-05. -/
theorem test_skp :
    after 0xE49E (withKeys (regs [(4, 0xA)]) [0xA]) (fun t => t.pc) = some 0x204 ∧
    after 0xE49E (regs [(4, 0xA)]) (fun t => t.pc) = some 0x202 ∧
    after 0xE49E (withKeys (regs [(4, 0x10)]) [0]) (fun t => (t.pc, t.fault)) =
      some (0x200, some (.keypadIndexOutOfRange 0x10)) := by decide

/-- T-45-03, T-45-04, T-45-06. -/
theorem test_sknp :
    after 0xE4A1 (regs [(4, 0xA)]) (fun t => t.pc) = some 0x204 ∧
    after 0xE4A1 (withKeys (regs [(4, 0xA)]) [0xA]) (fun t => t.pc) = some 0x202 ∧
    after 0xE4A1 (regs [(4, 0xFF)]) (fun t => (t.pc, t.fault)) =
      some (0x200, some (.keypadIndexOutOfRange 0xFF)) := by decide

/-- T-45-09 and T-45-10. -/
theorem test_ldKey :
    after 0xF50A (withKeys (regs [(5, 0xEE)]) [7, 3]) (fun t => (t.pc, t.getV 5)) = some (0x202, 3) ∧
    after 0xF50A (regs [(5, 0xEE)]) (fun t => (t.pc, t.getV 5)) = some (0x200, 0xEE) := by decide

/-- T-45-08, T-45-13, T-45-14. -/
theorem test_timer_transfers :
    after 0xF307 ({ State.reset with dt := 42 }) (fun t => (t.getV 3, t.dt)) = some (42, 42) ∧
    after 0xF015 (regs [(0, 3)]) (fun t => t.dt) = some 3 ∧
    after 0xF118 (regs [(1, 2)]) (fun t => (t.st, t.tone)) = some (2, false) := by decide

/-- T-42-43 and T-45-19: a malformed word is reported and does nothing else. -/
theorem test_malformed :
    after 0x8128 (regs [(1, 1), (2, 2)]) (fun t => (t.getV 1, t.getV 15, t.reports, t.pc)) =
      some (1, 0, [0x8128], 0x202) ∧
    after 0xE000 (regs [(0, 0xFF)]) (fun t => (t.fault, t.reports)) = some (none, [0xE000]) := by decide

/-- T-40-T2: a faulted core goes no further. -/
theorem test_faulted : after 0x6A3F ({ State.reset with fault := some (.stackUnderflow 0x200) })
    (fun t => (t.pc, t.getV 0xA, t.burst)) = some (0x200, 0, 0) := by decide

/-- T-70-04 and T-70-05: the load. -/
theorem test_load : (match load [0x12] with
      | .next s => some (Memory.readBytes s.mem 0x200 2, Memory.readBytes s.mem 0x4B 6, s.pc)
      | _ => none) =
    some ([0x12, 0], [0xF0, 0x80, 0xF0, 0x80, 0x80, 0], 0x200) := by decide

/-- R8, R234: a machine with another `FONT` can be loaded, and its bytes are read like any others. -/
theorem test_load_other_font :
    (match load [0x12] (Config.fontDefault.set 1 0x77) with
      | .next s => some (Memory.readBytes s.mem 0 3, Memory.readBytes s.mem 0x200 2, s.mem)
      | _ => none) =
    some ([0xF0, 0x77, 0x90], [0x12, 0], [(1, 0x77), (0x200, 0x12)]) := by decide

/-- R231, R232: the load of the empty image with the default `FONT` is the reset state. -/
theorem test_load_empty_is_reset : load [] = .next State.reset := by
  have h : Memory.writeBytes [] 0 Config.fontDefault.toList = [] := by decide
  simp [load, h, Memory.writeBytes, State.reset]

/-- Memory stays in canonical form: rising addresses, and a byte written back to its reset content is not listed. -/
theorem test_memory_canonical :
    Memory.writeBytes [] 0x300 [1, 2] = [(0x300, 1), (0x301, 2)] ∧
    Memory.write (Memory.write [(0x300, 1)] 0x2FF 7) 0x300 0 = [(0x2FF, 7)] ∧ Memory.write [] 0 0xF0 = [] := by decide

/-! ## Witnesses: for every statement with hypotheses, data that meet them all -/

theorem witness_EncodeOfDecodeIsIdentity : decodeWord 0x8AB4 = .ok (.addReg 0xA 0xB) := by decide

theorem witness_OpcodeMapRowSelectsDecodedInstr :
    (0x9AB7 : Word) &&& (Instr.row (.sneReg 0 0 0)).mask = (Instr.row (.sneReg 0 0 0)).fixed := by decide

theorem witness_OpcodeMapRowsAreDisjoint :
    (0x8AB6 : Word) &&& (Instr.row (.shr 0 0)).mask = (Instr.row (.shr 0 0)).fixed ∧
    (0x8AB6 : Word) &&& (Instr.row (.shr 1 1)).mask = (Instr.row (.shr 1 1)).fixed := by decide

theorem witness_IgnoredFieldsHaveNoEffect :
    decodeWord 0x00E0 = .ok (.cls 0) ∧ decodeWord 0x0AE0 = .ok (.cls 0xA) ∧
    Instr.canonical (.cls 0) = Instr.canonical (.cls 0xA) := by decide

/-- The last word of memory. -/
theorem witness_StepRunsTheDecodedInstr :
    let s := withBytes ({ State.reset with pc := 0xFFE }) 0xFFE [0x6A, 0x01]
    s.fault = none ∧ s.pc.toNat ≤ 0xFFE ∧
    decodeWord (Memory.read s.mem s.pc.toNat ++ Memory.read s.mem (s.pc.toNat + 1)) = .ok (.ldImm 0xA 1) := by decide

/-- One state for each clause, at the two sides of the end of a burst. -/
theorem witness_SequencerAfterAnInstruction :
    ({ State.reset with fault := some (.stackUnderflow 0x200) } : State).fault ≠ none ∧
    (let t := { State.reset with burst := 6 }; t.fault = none ∧ t.burst + 1 < t.ipt) ∧
    (let t := { State.reset with burst := 7 }; t.fault = none ∧ t.ipt ≤ t.burst + 1) := by decide

theorem witness_MalformedWordIsReportedNoOp :
    State.reset.fault = none ∧ State.reset.pc.toNat ≤ 0xFFE ∧
    (0x0000 : Word) = Memory.read State.reset.mem State.reset.pc.toNat ++
      Memory.read State.reset.mem (State.reset.pc.toNat + 1) ∧
    ∀ i, decodeWord 0x0000 ≠ .ok i := by
  refine ⟨by decide, by decide, by decide, fun i h => ?_⟩
  have e : decodeWord 0x0000 = .error (.malformed 0x0000) := by decide
  rw [e] at h
  cases h

theorem witness_FetchPastTheEndFaults :
    (let s := { State.reset with pc := 0xFFF }; s.fault = none ∧ 0xFFF ≤ s.pc.toNat) ∧
    (let s := { State.reset with pc := 0x1000 }; s.fault = none ∧ 0xFFF ≤ s.pc.toNat) := by decide

theorem witness_FaultedCoreIsFrozen :
    ({ State.reset with fault := some (.stackUnderflow 0x200) } : State).fault ≠ none := by decide

theorem reset_inv : State.reset.Inv :=
  ⟨by decide, by decide, by decide, by decide, by decide⟩

theorem witness_StepKeepsInv : State.reset.Inv ∧ ∃ t, step State.reset = .next t := ⟨reset_inv, _, rfl⟩

theorem witness_LoadedStateMeetsInv :
    (∃ s, load [0x12, 0x00] = .next s) ∧ ∃ s, load [0x12, 0x00] (Vector.replicate 80 0) = .next s :=
  ⟨⟨_, rfl⟩, _, rfl⟩

theorem witness_TickIsBurstThenTimerUpdate : 0 < State.reset.ipt ∧ State.reset.burst = 0 := by decide

theorem witness_TimerUpdatesCountDown : 0 < 1 := by decide

theorem witness_KeypadMattersOnlyToKeypadInstrs : readsKeys (.drw 0 1 2) = false := by decide

theorem witness_RandomInputMattersOnlyToRnd : drawsSample (.skp 0) = false := by decide

theorem witness_ParkedStateStaysParked : State.parked (withBytes State.reset 0x200 [0x12, 0x00]) := by
  unfold State.parked
  decide

theorem witness_FaultsArePrecise : State.reset.fault = none ∧
    ∃ t, exec (.ret 0) State.reset = .next t ∧ t.fault = some (.stackUnderflow 0x200) :=
  ⟨by decide, _, rfl, by decide⟩

theorem witness_FaultsAreExactlyTheListedOnes : State.reset.fault = none := by decide

theorem witness_PcMovesAsListed :
    (faultOf (.seImm 0 0) State.reset = none ∧ ∃ t, exec (.seImm 0 0) State.reset = .next t) ∧
    ∃ t, execMalformed 0 State.reset = .next t := ⟨⟨by decide, _, rfl⟩, _, rfl⟩

/-- A register that is neither destination nor `VF`, and `VF` under an instruction that writes no flag. -/
theorem witness_RegisterFrame :
    ((∃ t, exec (.addReg 1 2) State.reset = .next t) ∧ destReg (.addReg 1 2) 3 = false ∧ (3 : Reg) ≠ VF) ∧
    ((∃ t, exec (.addImm 1 2) State.reset = .next t) ∧ destReg (.addImm 1 2) VF = false ∧
      writesFlag (.addImm 1 2) = false) := ⟨⟨⟨_, rfl⟩, by decide, by decide⟩, ⟨_, rfl⟩, by decide, by decide⟩

theorem witness_IndexRegisterFrame :
    (∃ t, exec (.storeRegs 3) State.reset = .next t) ∧ writesIndex (.storeRegs 3) = false := ⟨⟨_, rfl⟩, by decide⟩

theorem witness_CallStackFrame :
    ((∃ t, exec (.jp 0x300) State.reset = .next t) ∧ usesStack (.jp 0x300) = false) ∧
    ∃ t, exec (.ret 7) { State.reset with sp := 1 } = .next t := ⟨⟨⟨_, rfl⟩, by decide⟩, _, rfl⟩

theorem witness_TimerFrame :
    (∃ t, exec (.ldSt 1) State.reset = .next t) ∧ (∀ x, Instr.ldSt 1 ≠ .ldDt x) ∧
    (∃ t, exec (.ldDt 1) State.reset = .next t) ∧ ∀ x, Instr.ldDt 1 ≠ .ldSt x :=
  ⟨⟨_, rfl⟩, by simp, ⟨_, rfl⟩, by simp⟩

/-- The two addresses beside the bytes stored. -/
theorem witness_MemoryFrame :
    let s := { State.reset with i := 0x300 }
    (∃ t, exec (.storeRegs 3) s = .next t) ∧ 0x2FF < dataAddr s ∧
      dataAddr s + storeCount (.storeRegs 3) ≤ 0x304 := ⟨⟨_, rfl⟩, by decide, by decide⟩

theorem witness_DisplayFrame :
    (∃ t, exec (.skp 1) State.reset = .next t) ∧ writesDisplay (.skp 1) = false := ⟨⟨_, rfl⟩, by decide⟩

theorem witness_EnvironmentFrame :
    (∃ t, exec (.rnd 1 0xFF) State.reset = .next t) ∧ ∃ t, exec (.cls 0) State.reset = .next t :=
  ⟨⟨_, rfl⟩, _, rfl⟩

theorem witness_CallPushesReturnAddress :
    ({ State.reset with sp := 11 } : State).sp.val < 12 ∧ ({ State.reset with sp := 12 } : State).sp.val = 12 := by
  decide

theorem witness_RetPopsReturnAddress :
    ({ State.reset with sp := 12 } : State).sp.val = (11 : Fin Config.stackCap).val + 1 ∧
    ({ State.reset with sp := 1 } : State).sp.val = (0 : Fin Config.stackCap).val + 1 ∧ State.reset.sp.val = 0 := by
  decide

/-- The call of vector T-41-07 and a return at its target. -/
theorem witness_CallThenRetRoundTrip :
    let s := withBytes (withBytes State.reset 0x200 [0x2F, 0xFE]) 0xFFE [0x00, 0xEE]
    s.sp.val < Config.stackCap ∧ s.fault = none ∧ s.pc.toNat ≤ 0xFFE ∧
    decodeWord (Memory.readWord s.mem s.pc.toNat) = .ok (.call 0xFFE) ∧ (0xFFE : Lit12).toNat ≤ 0xFFE ∧
    decodeWord (Memory.readWord s.mem (0xFFE : Lit12).toNat) = .ok (.ret 0) := by decide

/-- The two sides of the borrow, each with operand 15. -/
theorem witness_SubtractionsSetNoBorrow :
    let s := regs [(1, 5), (15, 3)]
    ((1 : Nat) = (if (s.getV 15).toNat ≤ (s.getV 1).toNat then 1 else 0) ∧
      (5 : Nat) = (if (1 : Reg) = 15 then 1 else (s.getV 1).toNat) ∧
      (1 : Nat) = (if (15 : Reg) = 15 then 1 else (s.getV 15).toNat)) ∧
    ((0 : Nat) = (if (s.getV 1).toNat ≤ (s.getV 15).toNat then 1 else 0) ∧
      (5 : Nat) = (if (1 : Reg) = 15 then 0 else (s.getV 1).toNat) ∧
      (0 : Nat) = (if (15 : Reg) = 15 then 0 else (s.getV 15).toNat)) := by decide

theorem witness_ShiftsSetShiftedOutBit :
    let s := regs [(1, 0x81), (15, 3)]
    ((1 : Nat) = (s.getV 1).toNat % 2 ∧ (0x81 : Nat) = (if (1 : Reg) = 15 then 1 else (s.getV 1).toNat)) ∧
    ((0 : Nat) = (s.getV 15).toNat / 128 ∧ (0 : Nat) = (if (15 : Reg) = 15 then 0 else (s.getV 15).toNat)) := by
  decide

theorem witness_RndMasksTheSample : ({ State.reset with rndIn := [0xA7] } : State).rndIn = 0xA7 :: [] := by decide

/-- The last address the three bytes fit at. -/
theorem witness_BcdStoresThreeDigits :
    let s := { State.reset with i := 0xFFD }
    Memory.wf s.mem ∧ s.i.toNat + 2 ≤ 0xFFF := by decide

/-- Sixteen registers in the last sixteen bytes. -/
theorem witness_StoreRegsWritesEachByte :
    let s := { State.reset with i := 0xFF0 }
    Memory.wf s.mem ∧ s.i.toNat + (15 : Reg).val ≤ 0xFFF := by decide

theorem witness_LoadRegsReadsEachByte :
    ({ State.reset with i := 0xFF0 } : State).i.toNat + (15 : Reg).val ≤ 0xFFF := by decide

/-- Each clause one byte past the end. -/
theorem witness_DataAccessPastTheEndFaults :
    0xFFF < ({ State.reset with i := 0xFFE } : State).i.toNat + 2 ∧
    0xFFF < ({ State.reset with i := 0xFF1 } : State).i.toNat + (15 : Reg).val ∧
    (let s := { regs [(1, 0x1D)] with i := 0xFFE };
      (3 : Nat) = min (3 : Nibble).toNat (32 - (s.getV 1).toNat % 32) ∧ 0 < 3 ∧ 0xFFF < s.i.toNat + 3 - 1) := by
  decide

theorem witness_StoreThenLoadRestoresRegs :
    let s := { State.reset with i := 0xFF0 }
    Memory.wf s.mem ∧ s.i.toNat + (15 : Reg).val ≤ 0xFFF ∧ ∃ t, exec (.storeRegs 15) s = .next t :=
  ⟨by decide, by decide, _, rfl⟩

theorem witness_StoredWordIsFetched :
    let s := { State.reset with pc := 0xFFC, i := 0xFFE }
    Memory.wf s.mem ∧ s.i = s.pc + 2 ∧ s.pc.toNat + 3 ≤ 0xFFF ∧ ∃ t, exec (.storeRegs 1) s = .next t :=
  ⟨by decide, by decide, by decide, _, rfl⟩

/-- T-44-11 (the clipped third row is not read) and T-44-15 (no row at all, with `I` past the end). -/
theorem witness_DrwXorsTheSprite :
    (let s := { regs [(1, 30)] with i := 0xFFE };
      (0 : Nat) = (s.getV 0).toNat % 64 ∧ (30 : Nat) = (s.getV 1).toNat % 32 ∧ (2 : Nat) = min (3 : Nibble).toNat (32 - 30) ∧
      [0, 0] = (List.range 2).map (fun r => Memory.read s.mem (s.i.toNat + r)) ∧
      (2 = 0 ∨ s.i.toNat + 2 - 1 ≤ 0xFFF)) ∧
    (let s := { State.reset with i := 0x1000 };
      (0 : Nat) = min (0 : Nibble).toNat (32 - 0) ∧
      [] = (List.range 0).map (fun r => Memory.read s.mem (s.i.toNat + r)) ∧
      (0 = 0 ∨ s.i.toNat + 0 - 1 ≤ 0xFFF)) := by decide

theorem witness_DrwTwiceRestoresDisplay :
    let s := { State.reset with i := 0xFFB }
    (0 : Reg) ≠ 15 ∧ (1 : Reg) ≠ 15 ∧ faultOf (.drw 0 1 5) s = none ∧ ∃ t, exec (.drw 0 1 5) s = .next t :=
  ⟨by decide, by decide, by decide, _, rfl⟩

theorem witness_KeypadSkipsMovePc : ((regs [(4, 15)]).getV 4).toNat = (15 : Reg).val := by decide

theorem witness_KeypadIndexAbove15Faults : 15 < ((regs [(4, 16)]).getV 4).toNat := by decide

theorem witness_KeyWaitTakesLeastKeyOrRetries :
    (let s := withKeys State.reset [15, 7];
      s.key.get 7 = true ∧ ∀ j : Reg, j < 7 → s.key.get j = false) ∧
    ∀ k : Reg, State.reset.key.get k = false := by decide

theorem witness_ResetValues : (79 : Fin Config.fontLen).val = 79 ∧ 80 ≤ 80 := by decide

/-- The longest image: its last byte stands at 0xFFF, and no byte after it is left. The bytes on both sides of the gap
between font and image are 0x50 and 0x1FF. -/
theorem witness_LoadPlacesFontAndImage :
    (List.replicate 3584 (0x5A : Byte)).length ≤ 3584 ∧ 3583 < (List.replicate 3584 (0x5A : Byte)).length ∧
    0x200 + (List.replicate 3584 (0x5A : Byte)).length ≤ 0x1000 ∧
    (80 ≤ 0x50 ∧ 0x50 < 0x200) ∧ 80 ≤ 0x1FF ∧ 0x1FF < 0x200 := by
  simp only [List.length_replicate]
  decide

theorem witness_OversizeImageIsRefused : 3584 < (List.replicate 3585 (0x5A : Byte)).length := by
  simp only [List.length_replicate]
  decide

end Sys2Proof.Tests
end

section
/-! The load and the invariant: what an accepted load answers, and that the state it answers meets `State.Inv`. -/

namespace Sys2Proof.Machine

/-- All that a load which answers a next state can do (70_reset_and_hazards.md R232, R233): the image fits, and only the
memory of the reset state differs. -/
theorem load_next {image : List Byte} {font : Config.Font} {s : State} (h : load image font = .next s) :
    image.length ≤ Config.romMax ∧
    s = State.reset.setMem
      (Memory.writeBytes (Memory.writeBytes State.reset.mem 0 font.toList) Config.entry image) := by
  unfold load at h
  split at h
  · cases h
  · rename_i hfits
    cases h
    exact ⟨Nat.le_of_not_lt hfits, rfl⟩

/-- The memory enters the invariant by its canonical form alone. -/
theorem State.Inv.setMem {s : State} (hs : s.Inv) {m : Memory} (hm : Memory.wf m) : (s.setMem m).Inv :=
  { hs with mem_wf := hm }

/-- Settles O16: an accepted load changes only the memory of the reset state, and byte writes keep its canonical form
whatever the font and the image are. -/
theorem loadedStateMeetsInv : Obligations.LoadedStateMeetsInv := by
  intro image font s h
  obtain ⟨-, rfl⟩ := load_next h
  have hreset : State.reset.Inv := Tests.reset_inv
  have hfont : Memory.wf (Memory.writeBytes State.reset.mem 0 font.toList) :=
    Memory.wf_writeBytes _ _ _ hreset.mem_wf
  exact hreset.setMem (Memory.wf_writeBytes _ _ _ hfont)

end Sys2Proof.Machine
end

section
/-! What an instruction can do, said once: it takes the fault the table of causes lists for it, or it completes, moves
`PC` as R27 lists and writes only the fields of its class. Every frame statement of 10_state.md follows from this. -/

namespace Sys2Proof.Machine

/-- Every register `t` and `s` disagree on is a destination of `i`, or `VF` under a flag-writing `i`
(10_state.md R24). -/
def KeepsOtherRegs (i : Instr) (s t : State) : Prop :=
  ∀ r, destReg i r = false → (r = VF → writesFlag i = false) → t.getV r = s.getV r

theorem KeepsOtherRegs.of_v {i : Instr} {s t : State} (h : t.v = s.v) : KeepsOtherRegs i s t :=
  fun r _ _ => s.getV_congr t r h

theorem KeepsOtherRegs.setV {i : Instr} {s t : State} {x : Reg} (h : KeepsOtherRegs i s t)
    (hx : destReg i x = true) (b : Byte) : KeepsOtherRegs i s (t.setV x b) := by
  intro r hr hf
  have hne : r ≠ x := by
    rintro rfl
    exact Bool.false_ne_true (hr.symm.trans hx)
  rw [State.getV_setV, if_neg hne, h r hr hf]

theorem KeepsOtherRegs.setFlag {i : Instr} {s t : State} (h : KeepsOtherRegs i s t)
    (hi : writesFlag i = true) (c : Bool) : KeepsOtherRegs i s (t.setFlag c) := by
  intro r hr hf
  have hne : r ≠ VF := fun e => Bool.false_ne_true ((hf e).symm.trans hi)
  rw [State.getV_setFlag, if_neg hne, h r hr hf]

/-- The instruction `i`, run at `s`, has completed at `t`: one constructor for each class of fields that an instruction
writes beside `PC`. -/
inductive Completes (i : Instr) (s t : State) : Prop where
  /-- Registers at most: the loads, the ALU, the jumps and the skips. -/
  | regs (hd : drawsSample i = false) (hv : KeepsOtherRegs i s t) (ht : t = { s with v := t.v, pc := nextPc i s })
  /-- The random byte: one sample and a register (42_register_alu.md R153). -/
  | sample (hd : drawsSample i = true) (hv : KeepsOtherRegs i s t)
      (ht : t = { s with v := t.v, pc := nextPc i s, rndIn := s.rndIn.tail, draws := s.draws + 1 })
  /-- `I` (10_state.md R25). -/
  | index (hd : drawsSample i = false) (hi : writesIndex i = true)
      (ht : t = { s with i := t.i, pc := nextPc i s })
  /-- The display, and the flag of a draw (44_display.md R184). -/
  | display (hd : drawsSample i = false) (hi : writesDisplay i = true) (hv : KeepsOtherRegs i s t)
      (ht : t = { s with v := t.v, disp := t.disp, pc := nextPc i s })
  /-- Bytes in memory, from `I` on (20_memory.md R61). -/
  | store (bs : List Byte) (hd : drawsSample i = false) (hlen : bs.length = storeCount i)
      (ht : t = { s with mem := Memory.writeBytes s.mem (dataAddr s) bs, pc := nextPc i s })
  /-- `DT` (R31). -/
  | setDt (x : Reg) (hi : i = .ldDt x) (ht : t = { s with dt := t.dt, pc := nextPc i s })
  /-- `ST` (R31). -/
  | setSt (x : Reg) (hi : i = .ldSt x) (ht : t = { s with st := t.st, pc := nextPc i s })
  /-- A push (R30). -/
  | call (nnn : Lit12) (hi : i = .call nnn) (hsp : s.sp.val < Config.stackCap)
      (ht : t = { s with
        stack := s.stack.set s.sp.val (s.pc + 2) hsp, sp := ⟨s.sp.val + 1, by omega⟩, pc := nextPc i s })
  /-- A pop (R30). -/
  | ret (x : Reg) (k : Fin Config.stackCap) (hi : i = .ret x) (hsp : s.sp.val = k.val + 1)
      (ht : t = { s with sp := ⟨k.val, by omega⟩, pc := nextPc i s })

/-- The instruction `i` leads from `s` to `t`: by the fault of the table of causes (60_exceptions.md R201 to R203), or,
where it lists none, by completing. -/
def Executes (i : Instr) (s t : State) : Prop :=
  (∃ f, faultOf i s = some f ∧ t = { s with fault := some f }) ∨ (faultOf i s = none ∧ Completes i s t)

/-- Registers `V[x]` alone, for an instruction that goes on at the next word. -/
theorem Executes.setV {i : Instr} {s : State} {x : Reg} {b : Byte} (hf : faultOf i s = none)
    (hd : drawsSample i = false) (hx : destReg i x = true) (hpc : nextPc i s = s.pc + 2) :
    Executes i s (s.advance.setV x b) :=
  .inr ⟨hf, .regs hd (.setV (.of_v rfl) hx b) (by rw [hpc]; rfl)⟩

/-- The result, then the flag (42_register_alu.md R145 to R147). -/
theorem Executes.setV_setFlag {i : Instr} {s : State} {x : Reg} {b : Byte} {c : Bool} (hf : faultOf i s = none)
    (hd : drawsSample i = false) (hx : destReg i x = true) (hw : writesFlag i = true)
    (hpc : nextPc i s = s.pc + 2) : Executes i s ((s.advance.setV x b).setFlag c) :=
  .inr ⟨hf, .regs hd (.setFlag (.setV (.of_v rfl) hx b) hw c) (by rw [hpc]; rfl)⟩

/-- The flag, then the result (R148 to R152). -/
theorem Executes.setFlag_setV {i : Instr} {s : State} {x : Reg} {b : Byte} {c : Bool} (hf : faultOf i s = none)
    (hd : drawsSample i = false) (hx : destReg i x = true) (hw : writesFlag i = true)
    (hpc : nextPc i s = s.pc + 2) : Executes i s ((s.advance.setFlag c).setV x b) :=
  .inr ⟨hf, .regs hd (.setV (.setFlag (.of_v rfl) hw c) hx b) (by rw [hpc]; rfl)⟩

/-- A write of `PC` alone. -/
theorem Executes.setPc {i : Instr} {s : State} {w : Word} (hf : faultOf i s = none) (hd : drawsSample i = false)
    (hpc : nextPc i s = w) : Executes i s (s.setPc w) :=
  .inr ⟨hf, .regs hd (.of_v rfl) (by rw [hpc]; rfl)⟩

/-- A write of `I` alone. -/
theorem Executes.setI {i : Instr} {s : State} {w : Word} (hf : faultOf i s = none) (hd : drawsSample i = false)
    (hi : writesIndex i = true) (hpc : nextPc i s = s.pc + 2) : Executes i s (s.advance.setI w) :=
  .inr ⟨hf, .index hd hi (by rw [hpc]; rfl)⟩

/-- An access of `count` bytes from `I` on that stays in memory meets no condition of the table of causes (R201,
R202). -/
theorem rangeFault_of_in {s : State} {count : Nat} (f : Fault) (h : count = 0 ∨ dataAddr s + count ≤ 4096) :
    (if 0 < count ∧ 0xFFF < s.i.toNat + count - 1 then some f else none) = none := by
  rw [dataAddr] at h
  exact if_neg (by omega)

/-- A range-checked instruction: the table's fault is the range check's, and what completes does so in range. -/
theorem withRange_executes {i : Instr} {s u : State} {count : Nat}
    (hf : faultOf i s = if 0 < count ∧ 0xFFF < s.i.toNat + count - 1
      then some (.memoryOutOfRange (max s.i.toNat 0x1000)) else none)
    (hu : Completes i s u) : ∃ t, withRange (dataAddr s) count s u = .next t ∧ Executes i s t := by
  obtain ⟨t, ht⟩ := withRange_next (dataAddr s) count s u
  refine ⟨t, ht, ?_⟩
  rcases withRange_cases ht with ⟨rfl, hin⟩ | ⟨rfl, hpos, hout⟩
  · exact .inr ⟨hf.trans (rangeFault_of_in _ hin), hu⟩
  · rw [dataAddr] at hout
    exact .inl ⟨_, hf.trans (if_pos ⟨hpos, by omega⟩), rfl⟩

/-- A keypad skip: the table's fault is the index check's. -/
theorem keySkip_executes {i : Instr} {s : State} {x : Reg} {c : Bool} (hd : drawsSample i = false)
    (hf : faultOf i s = if 15 < (s.getV x).toNat then some (.keypadIndexOutOfRange (s.getV x)) else none)
    (hpc : nextPc i s = if c then s.pc + 4 else s.pc + 2) : ∃ t, keySkip x c s = .next t ∧ Executes i s t := by
  obtain ⟨t, ht⟩ := keySkip_next x c s
  refine ⟨t, ht, ?_⟩
  rcases keySkip_cases ht with ⟨rfl, hin⟩ | ⟨rfl, hout⟩
  · exact .setPc (hf.trans (if_neg (by omega))) hd hpc
  · exact .inl ⟨_, hf.trans (if_pos hout), rfl⟩

/-- A stack without a free slot is full (10_state.md R30). -/
theorem State.sp_eq_stackCap {s : State} (h : ¬ s.sp.val < Config.stackCap) : s.sp.val = Config.stackCap := by
  have := s.sp.isLt
  omega

/-- A stack that is not empty has a topmost slot (R30). -/
theorem State.exists_topSlot {s : State} (h : s.sp.val ≠ 0) : ∃ k : Fin Config.stackCap, s.sp.val = k.val + 1 := by
  have hlt := s.sp.isLt
  obtain ⟨k, hk⟩ := Nat.exists_eq_succ_of_ne_zero h
  exact ⟨⟨k, by omega⟩, hk⟩

/-- `CALL`: a push and a jump, or the fault of the full stack (41_flow_and_skip.md R123). -/
theorem execCall_executes (nnn : Lit12) (s : State) : ∃ t, execCall nnn s = .next t ∧ Executes (.call nnn) s t := by
  unfold execCall
  by_cases hsp : s.sp.val < Config.stackCap
  · rw [State.push_of_free s _ hsp]
    have hf : faultOf (.call nnn) s = none := if_neg (Nat.ne_of_lt hsp)
    exact ⟨_, rfl, .inr ⟨hf, .call nnn rfl hsp (by rw [nextPc, ← addrOf_eq_ofNat]; rfl)⟩⟩
  · have hfull := State.sp_eq_stackCap hsp
    rw [State.push_of_full s _ hfull]
    exact ⟨_, rfl, .inl ⟨_, if_pos hfull, rfl⟩⟩

/-- Where a return address is held, `RET` goes to the topmost one (10_state.md R27). -/
theorem nextPc_ret {x : Reg} {s : State} {k : Fin Config.stackCap} (hsp : s.sp.val = k.val + 1) :
    nextPc (.ret x) s = s.stack.get k := by
  simp [nextPc, hsp, Vector.get_eq_getElem]

/-- `RET`: a pop into `PC`, or the fault of the empty stack (R121). -/
theorem execRet_executes (x : Reg) (s : State) : ∃ t, execRet s = .next t ∧ Executes (.ret x) s t := by
  unfold execRet
  by_cases hsp : s.sp.val = 0
  · rw [State.pop_of_empty s hsp]
    exact ⟨_, rfl, .inl ⟨_, if_pos hsp, rfl⟩⟩
  · obtain ⟨k, hk⟩ := State.exists_topSlot hsp
    rw [State.pop_of_held s k hk]
    exact ⟨_, rfl, .inr ⟨if_neg hsp, .ret x k rfl hk (by rw [nextPc_ret hk]; rfl)⟩⟩

/-- `LD Vx, K`: the least key, or the same word again (45_keypad_timers.md R194). -/
theorem execLdKey_executes (x : Reg) (s : State) : ∃ t, execLdKey x s = .next t ∧ Executes (.ldKey x) s t := by
  unfold execLdKey
  cases hk : s.firstKey with
  | none =>
    have hpc : nextPc (.ldKey x) s = s.pc := if_pos ((firstKey_eq_none_iff s).1 hk)
    exact ⟨_, rfl, .setPc rfl rfl hpc⟩
  | some k =>
    have hpc : nextPc (.ldKey x) s = s.pc + 2 :=
      if_neg fun h => by rw [(firstKey_eq_none_iff s).2 h] at hk; cases hk
    exact ⟨_, rfl, .setV rfl rfl (beq_self_eq_true x) hpc⟩

/-- The registers above `x` are as before a block load (43_index_memory.md R166). -/
theorem loadedRegs_keepsOtherRegs (x : Reg) (s : State) :
    KeepsOtherRegs (.loadRegs x) s { s.advance with v := loadedRegs s x } := by
  intro r hr _
  have hx : ¬ r ≤ x := of_decide_eq_false hr
  exact (get_loadedRegs s x r).trans (if_neg hx)

/-- Every instruction executes, in every state (30_encoding.md R90): it takes its listed fault or completes. -/
theorem exec_executes (i : Instr) (s : State) : ∃ t, exec i s = .next t ∧ Executes i s t := by
  cases i with
  | cls x => exact ⟨_, rfl, .inr ⟨rfl, .display rfl rfl (.of_v rfl) rfl⟩⟩
  | ret x => exact execRet_executes x s
  | jp nnn => exact ⟨_, rfl, .setPc rfl rfl (addrOf_eq_ofNat nnn).symm⟩
  | call nnn => exact execCall_executes nnn s
  | seImm x nn => exact ⟨_, rfl, .setPc rfl rfl (by simp [nextPc])⟩
  | sneImm x nn => exact ⟨_, rfl, .setPc rfl rfl (by simp [nextPc])⟩
  | seReg x y => exact ⟨_, rfl, .setPc rfl rfl (by simp [nextPc])⟩
  | ldImm x nn => exact ⟨_, rfl, .setV rfl rfl (beq_self_eq_true x) rfl⟩
  | addImm x nn => exact ⟨_, rfl, .setV rfl rfl (beq_self_eq_true x) rfl⟩
  | ldReg x y => exact ⟨_, rfl, .setV rfl rfl (beq_self_eq_true x) rfl⟩
  | orReg x y => exact ⟨_, rfl, .setV_setFlag rfl rfl (beq_self_eq_true x) rfl rfl⟩
  | andReg x y => exact ⟨_, rfl, .setV_setFlag rfl rfl (beq_self_eq_true x) rfl rfl⟩
  | xorReg x y => exact ⟨_, rfl, .setV_setFlag rfl rfl (beq_self_eq_true x) rfl rfl⟩
  | addReg x y => exact ⟨_, rfl, .setFlag_setV rfl rfl (beq_self_eq_true x) rfl rfl⟩
  | sub x y => exact ⟨_, rfl, .setFlag_setV rfl rfl (beq_self_eq_true x) rfl rfl⟩
  | shr x y => exact ⟨_, rfl, .setFlag_setV rfl rfl (beq_self_eq_true x) rfl rfl⟩
  | subn x y => exact ⟨_, rfl, .setFlag_setV rfl rfl (beq_self_eq_true x) rfl rfl⟩
  | shl x y => exact ⟨_, rfl, .setFlag_setV rfl rfl (beq_self_eq_true x) rfl rfl⟩
  | sneReg x y n => exact ⟨_, rfl, .setPc rfl rfl (by simp [nextPc])⟩
  | ldI nnn => exact ⟨_, rfl, .setI rfl rfl rfl rfl⟩
  | jpV0 nnn => exact ⟨_, rfl, .setPc rfl rfl (by
      rw [nextPc, ← toNat_offsetTarget, BitVec.ofNat_toNat, BitVec.setWidth_eq])⟩
  | rnd x nn =>
    have hv : KeepsOtherRegs (.rnd x nn) s s.takeSample.advance := .of_v rfl
    exact ⟨_, rfl, .inr ⟨rfl, .sample rfl (hv.setV (beq_self_eq_true x) _) rfl⟩⟩
  | drw x y n => exact withRange_executes rfl (.display rfl rfl (.setFlag (.of_v rfl) rfl _) rfl)
  | skp x => exact keySkip_executes rfl rfl rfl
  | sknp x => exact keySkip_executes rfl rfl (by simp [nextPc, State.keyAt])
  | ldFromDt x => exact ⟨_, rfl, .setV rfl rfl (beq_self_eq_true x) rfl⟩
  | ldKey x => exact execLdKey_executes x s
  | ldDt x => exact ⟨_, rfl, .inr ⟨rfl, .setDt x rfl rfl⟩⟩
  | ldSt x => exact ⟨_, rfl, .inr ⟨rfl, .setSt x rfl rfl⟩⟩
  | addI x => exact ⟨_, rfl, .setI rfl rfl rfl rfl⟩
  | ldFont x => exact ⟨_, rfl, .setI rfl rfl rfl rfl⟩
  | ldBcd x =>
    exact withRange_executes (by simp [faultOf]) (.store _ rfl (length_decimalDigits _) rfl)
  | storeRegs x =>
    exact withRange_executes (by simp [faultOf, regCount]) (.store _ rfl (length_lowRegs s x) rfl)
  | loadRegs x =>
    exact withRange_executes (by simp [faultOf, regCount]) (.regs rfl (loadedRegs_keepsOtherRegs x s) rfl)

/-- All that an instruction which answers a next state can do. -/
theorem executes_of_exec {i : Instr} {s t : State} (h : exec i s = .next t) : Executes i s t := by
  obtain ⟨u, hu, hex⟩ := exec_executes i s
  cases hu.symm.trans h
  exact hex

end Sys2Proof.Machine
end

section
/-! The frames of 10_state.md: each is read off the classes of `Completes`, since a fault writes the latch alone. -/

namespace Sys2Proof.Machine

/-- A completed instruction has moved `PC` as R27 lists. -/
theorem Completes.pc {i : Instr} {s t : State} (h : Completes i s t) : t.pc = nextPc i s := by
  cases h with
  | regs _ _ ht | sample _ _ ht | index _ _ ht | display _ _ _ ht | store _ _ _ ht | setDt _ _ ht | setSt _ _ ht
  | call _ _ _ ht | ret _ _ _ _ ht => rw [ht]

/-- Settles O24: an instruction that takes no fault completes, and a malformed word advances `PC`. -/
theorem pcMovesAsListed : Obligations.PcMovesAsListed := by
  refine ⟨fun i s t hf h => ?_, fun w s t h => ?_⟩
  · rcases executes_of_exec h with ⟨f, hf', -⟩ | ⟨-, hc⟩
    · cases hf.symm.trans hf'
    · exact hc.pc
  · cases h
    rfl

/-- A completed instruction has changed no register but a destination, or `VF` as the flag. -/
theorem Completes.keepsOtherRegs {i : Instr} {s t : State} (h : Completes i s t) : KeepsOtherRegs i s t := by
  cases h with
  | regs _ hv _ | sample _ hv _ | display _ _ hv _ => exact hv
  | index _ _ ht | store _ _ _ ht | setDt _ _ ht | setSt _ _ ht | call _ _ _ ht | ret _ _ _ _ ht =>
    exact .of_v (by rw [ht])

/-- Settles O25: the register frame of the completed instruction; a fault writes no register. -/
theorem registerFrame : Obligations.RegisterFrame := by
  intro i s t r h
  rcases executes_of_exec h with ⟨f, -, rfl⟩ | ⟨-, hc⟩
  · exact fun _ _ => rfl
  · exact hc.keepsOtherRegs r

/-- Settles O26: `I` is in the class of the instructions that write it alone. -/
theorem indexRegisterFrame : Obligations.IndexRegisterFrame := by
  intro i s t h hi
  rcases executes_of_exec h with ⟨f, -, rfl⟩ | ⟨-, hc⟩
  · rfl
  · cases hc with
    | index _ hi' _ => exact absurd (hi.symm.trans hi') Bool.false_ne_true
    | regs _ _ ht | sample _ _ ht | display _ _ _ ht | store _ _ _ ht | setDt _ _ ht | setSt _ _ ht | call _ _ _ ht
    | ret _ _ _ _ ht => rw [ht]

/-- Settles O27: the stack is in the classes of `CALL` and `RET` alone, and a pop writes no slot. -/
theorem callStackFrame : Obligations.CallStackFrame := by
  intro i s t h
  rcases executes_of_exec h with ⟨f, -, rfl⟩ | ⟨-, hc⟩
  · exact ⟨fun _ => ⟨rfl, rfl⟩, fun _ _ => rfl⟩
  · cases hc with
    | call _ hi _ _ =>
      subst hi
      exact ⟨fun hu => absurd hu.symm Bool.false_ne_true, fun x hi => Instr.noConfusion hi⟩
    | ret _ _ hi _ ht =>
      subst hi
      exact ⟨fun hu => absurd hu.symm Bool.false_ne_true, fun _ _ => by rw [ht]⟩
    | regs _ _ ht | sample _ _ ht | index _ _ ht | display _ _ _ ht | store _ _ _ ht | setDt _ _ ht | setSt _ _ ht =>
      exact ⟨fun _ => by rw [ht]; exact ⟨rfl, rfl⟩, fun _ _ => by rw [ht]⟩

/-- Settles O28: no class writes `TONE`, and each timer is written in the class of its one instruction. -/
theorem timerFrame : Obligations.TimerFrame := by
  intro i s t h
  rcases executes_of_exec h with ⟨f, -, rfl⟩ | ⟨-, hc⟩
  · exact ⟨rfl, fun _ => rfl, fun _ => rfl⟩
  · cases hc with
    | setDt x hi ht => exact ⟨by rw [ht], fun hne => absurd hi (hne x), fun _ => by rw [ht]⟩
    | setSt x hi ht => exact ⟨by rw [ht], fun _ => by rw [ht], fun hne => absurd hi (hne x)⟩
    | regs _ _ ht | sample _ _ ht | index _ _ ht | display _ _ _ ht | store _ _ _ ht | call _ _ _ ht
    | ret _ _ _ _ ht => exact ⟨by rw [ht], fun _ => by rw [ht], fun _ => by rw [ht]⟩

/-- Everything outside the core is as before: the keypad, `IPT`, the burst position, the reports and the key states to
come (R20, R36, R208). -/
structure KeepsOutside (s t : State) : Prop where
  key : t.key = s.key
  ipt : t.ipt = s.ipt
  burst : t.burst = s.burst
  reports : t.reports = s.reports
  keyIn : t.keyIn = s.keyIn
  ticks : t.ticks = s.ticks

theorem Executes.keepsOutside {i : Instr} {s t : State} (h : Executes i s t) : KeepsOutside s t := by
  rcases h with ⟨f, -, rfl⟩ | ⟨-, hc⟩
  · exact ⟨rfl, rfl, rfl, rfl, rfl, rfl⟩
  · cases hc with
    | regs _ _ ht | sample _ _ ht | index _ _ ht | display _ _ _ ht | store _ _ _ ht | setDt _ _ ht | setSt _ _ ht
    | call _ _ _ ht | ret _ _ _ _ ht =>
      rw [ht]
      exact ⟨rfl, rfl, rfl, rfl, rfl, rfl⟩

/-- The samples that are left, and how many have been taken. -/
theorem Completes.samples {i : Instr} {s t : State} (h : Completes i s t) :
    if drawsSample i then t.rndIn = s.rndIn.tail ∧ t.draws = s.draws + 1
    else t.rndIn = s.rndIn ∧ t.draws = s.draws := by
  cases h with
  | sample hd _ ht => rw [if_pos hd, ht]; exact ⟨rfl, rfl⟩
  | regs hd _ ht | index hd _ ht | display hd _ _ ht | store _ hd _ ht =>
    rw [if_neg (by simp [hd]), ht]; exact ⟨rfl, rfl⟩
  | setDt _ hi ht | setSt _ hi ht | call _ hi _ ht | ret _ _ hi _ ht =>
    subst hi; rw [ht]; exact ⟨rfl, rfl⟩

/-- `RND` raises no fault (60_exceptions.md R202). -/
theorem drawsSample_of_faultOf {i : Instr} {s : State} {f : Fault} (h : faultOf i s = some f) :
    drawsSample i = false := by
  cases i with
  | rnd x nn => cases h
  | _ => rfl

/-- Settles O31: what lies outside the core is kept, and the only class that takes a sample is that of `RND`. -/
theorem environmentFrame : Obligations.EnvironmentFrame := by
  intro i s t h
  obtain ⟨hkey, hipt, hburst, hreports, hkeyIn, hticks⟩ := (executes_of_exec h).keepsOutside
  refine ⟨hkey, hipt, hburst, hreports, hkeyIn, hticks, ?_⟩
  rcases executes_of_exec h with ⟨f, hf, rfl⟩ | ⟨-, hc⟩
  · rw [if_neg (by simp [drawsSample_of_faultOf hf])]
    exact ⟨rfl, rfl⟩
  · exact hc.samples

end Sys2Proof.Machine
end

section
/-! What an instruction step can do, said once, and the invariant of a run. -/

namespace Sys2Proof.Machine

/-- An instruction step, in its four forms: none while a fault is latched (40_fetch_dispatch.md R112), the fault of the
fetch (R101), an instruction (R104), or a malformed word (R105). -/
inductive Steps (s t : State) : Prop where
  | frozen (hf : s.fault ≠ none) (ht : t = s)
  | fetchFault (hf : s.fault = none) (hpc : 0xFFF ≤ s.pc.toNat)
      (ht : t = { s with fault := some (.memoryOutOfRange (max s.pc.toNat 4096)) })
  | instr (i : Instr) (hf : s.fault = none) (hpc : s.pc.toNat ≤ 0xFFE)
      (hw : decodeWord (Memory.readWord s.mem s.pc.toNat) = .ok i) (hex : Executes i s t)
  | malformed (e : DecodeError) (hf : s.fault = none) (hpc : s.pc.toNat ≤ 0xFFE)
      (hw : decodeWord (Memory.readWord s.mem s.pc.toNat) = .error e)
      (ht : t = { s.advance with reports := s.reports ++ [Memory.readWord s.mem s.pc.toNat] })

/-- What dispatch selects is an instruction's meaning or the malformed no-op (R104). -/
theorem execWord_steps {s : State} (hf : s.fault = none) (hpc : s.pc.toNat ≤ 0xFFE) :
    ∃ t, execWord (Memory.readWord s.mem s.pc.toNat) s = .next t ∧ Steps s t := by
  unfold execWord
  cases hw : decodeWord (Memory.readWord s.mem s.pc.toNat) with
  | ok i =>
    obtain ⟨t, ht, hex⟩ := exec_executes i s
    exact ⟨t, ht, .instr i hf hpc hw hex⟩
  | error e => exact ⟨_, rfl, .malformed e hf hpc hw rfl⟩

/-- Every instruction step answers a next state, in one of the four forms. -/
theorem instrStep_steps (s : State) : ∃ t, instrStep s = .next t ∧ Steps s t := by
  unfold instrStep
  by_cases hf : s.fault = none
  · rw [if_neg (by simp [hf])]
    by_cases hpc : s.pc.toNat ≤ 0xFFE
    · rw [fetch_of_in s hpc]
      exact execWord_steps hf hpc
    · have hout : 0xFFF ≤ s.pc.toNat := by omega
      rw [fetch_of_out s hout]
      exact ⟨_, rfl, .fetchFault hf hout rfl⟩
  · rw [if_pos (Option.isSome_iff_ne_none.2 hf)]
    exact ⟨s, rfl, .frozen hf rfl⟩

/-- The step of the machine is an instruction step and what follows it in the tick. -/
theorem step_steps (s : State) : ∃ u, instrStep s = .next u ∧ Steps s u ∧ step s = .next (endInstr u) := by
  obtain ⟨u, hu, hs⟩ := instrStep_steps s
  exact ⟨u, hu, hs, by rw [step, hu]; rfl⟩

/-! The invariant -/

/-- The invariant does not speak of the fault latch. -/
theorem State.Inv.setFault {s : State} (hs : s.Inv) (f : Option Fault) : State.Inv { s with fault := f } :=
  { hs with }

/-- A skip from a word in memory stays far below the bound of R28. -/
theorem toNat_skip_le {a : Word} (c : Prop) [Decidable c] (ha : a.toNat ≤ 0xFFE) :
    (if c then a + 4 else a + 2).toNat ≤ 0x10FE := by
  split <;> bv_omega

/-- `PC` stays in the range of R28 after an instruction that was fetched and takes no fault. -/
theorem toNat_nextPc_le {i : Instr} {s : State} (hs : s.Inv) (hpc : s.pc.toNat ≤ 0xFFE) (hf : faultOf i s = none) :
    (nextPc i s).toNat ≤ 0x10FE := by
  have hword : (s.pc + 2).toNat ≤ 0x10FE := by bv_omega
  cases i with
  | jp nnn | call nnn =>
    rw [nextPc, ← addrOf_eq_ofNat, toNat_addrOf]
    have := nnn.isLt
    omega
  | jpV0 nnn =>
    rw [nextPc, ← toNat_offsetTarget, BitVec.ofNat_toNat, BitVec.setWidth_eq, toNat_offsetTarget]
    have := (s.getV 0).isLt
    have := nnn.isLt
    omega
  | ret x =>
    have hsp : s.sp.val ≠ 0 := fun h => by rw [faultOf, if_pos h] at hf; cases hf
    obtain ⟨k, hk⟩ := State.exists_topSlot hsp
    rw [nextPc_ret hk]
    exact Nat.le_trans (hs.live_le k (by omega)) (by decide)
  | seImm | sneImm | seReg | sneReg | skp | sknp => exact toNat_skip_le _ hpc
  | ldKey x =>
    rw [nextPc]
    split <;> bv_omega
  | _ => exact hword

/-- A store keeps the canonical form, and no other class touches memory. -/
theorem Completes.mem_wf {i : Instr} {s t : State} (h : Completes i s t) (hm : Memory.wf s.mem) :
    Memory.wf t.mem := by
  cases h with
  | store bs _ _ ht =>
    rw [ht]
    exact Memory.wf_writeBytes bs s.mem _ hm
  | regs _ _ ht | sample _ _ ht | index _ _ ht | display _ _ _ ht | setDt _ _ ht | setSt _ _ ht | call _ _ _ ht
  | ret _ _ _ _ ht =>
    rw [ht]
    exact hm

/-- Every live slot holds an address a `CALL` can push (10_state.md R28). -/
def LiveSlotsLe (s : State) : Prop :=
  ∀ k : Fin Config.stackCap, k.val < s.sp.val → (s.stack.get k).toNat ≤ 0x1000

/-- A `CALL` in memory pushes at most 0x1000, a `RET` drops a slot, and no other class touches the stack. -/
theorem Completes.liveSlotsLe {i : Instr} {s t : State} (h : Completes i s t) (hpc : s.pc.toNat ≤ 0xFFE)
    (hl : LiveSlotsLe s) : LiveSlotsLe t := by
  cases h with
  | call nnn _ hsp ht =>
    rw [ht]
    intro k hk
    simp only [Vector.get_eq_getElem, Vector.getElem_set] at hk ⊢
    split
    · bv_omega
    · exact hl k (by omega)
  | ret x j _ hsp ht =>
    rw [ht]
    intro k hk
    exact hl k (by simp only at hk; omega)
  | regs _ _ ht | sample _ _ ht | index _ _ ht | display _ _ _ ht | store _ _ _ ht | setDt _ _ ht | setSt _ _ ht =>
    rw [ht]
    exact hl

/-- An instruction in memory keeps the invariant, faulting or not. -/
theorem Executes.inv {i : Instr} {s t : State} (h : Executes i s t) (hpc : s.pc.toNat ≤ 0xFFE) (hs : s.Inv) :
    t.Inv := by
  have hout := h.keepsOutside
  rcases h with ⟨f, -, rfl⟩ | ⟨hf, hc⟩
  · exact hs.setFault _
  · exact {
      mem_wf := hc.mem_wf hs.mem_wf
      pc_le := by rw [hc.pc]; exact toNat_nextPc_le hs hpc hf
      live_le := hc.liveSlotsLe hpc hs.live_le
      ipt_pos := by rw [hout.ipt]; exact hs.ipt_pos
      burst_lt := by rw [hout.ipt, hout.burst]; exact hs.burst_lt }

/-- An instruction step keeps the invariant. -/
theorem Steps.inv {s t : State} (h : Steps s t) (hs : s.Inv) : t.Inv := by
  cases h with
  | frozen _ ht => exact ht ▸ hs
  | fetchFault _ _ ht => exact ht ▸ hs.setFault _
  | instr i _ hpc _ hex => exact hex.inv hpc hs
  | malformed e _ hpc _ ht =>
    subst ht
    exact { hs with pc_le := by show (s.pc + 2).toNat ≤ 0x10FE; bv_omega }

/-- What follows an instruction step keeps the invariant: the burst position moves on below `IPT`, or starts again. -/
theorem State.Inv.endInstr {s : State} (hs : s.Inv) : (endInstr s).Inv := by
  unfold Machine.endInstr
  split
  · exact hs
  · split
    · rename_i hlt
      exact { hs with burst_lt := hlt }
    · exact { hs with burst_lt := hs.ipt_pos }

/-- Settles O14: the instruction step keeps the invariant in each of its forms, and so does the sequencer after it. -/
theorem stepKeepsInv : Obligations.StepKeepsInv := by
  intro s t hs h
  obtain ⟨u, -, hu, hstep⟩ := step_steps s
  cases hstep.symm.trans h
  exact (hu.inv hs).endInstr

end Sys2Proof.Machine
end

section
/-! The state after reset (10_state.md R42). -/

namespace Sys2Proof.Machine

/-- Settles O15: its five parts are closed facts about the reset state, checked with the model's own tests. -/
theorem resetMeetsInv : Obligations.ResetMeetsInv := Tests.reset_inv

/-- Memory reads as zero from the end of the font table on, where nothing is listed (20_memory.md R57). -/
theorem background_eq_zero {a : Nat} (h : 80 ≤ a) : Memory.background a = 0 := by
  unfold Memory.background
  rw [Vector.getElem?_eq_none (by simpa using h)]
  rfl

/-- Where nothing is listed the font table stands at address 0 (R56). -/
theorem background_font (k : Fin Config.fontLen) : Memory.background k.val = Config.fontDefault.get k := by
  simp [Memory.background, Vector.get_eq_getElem]

/-- Settles O58: the reset state lists no byte, so its memory is the background; its vectors are constant. -/
theorem resetValues : Obligations.ResetValues :=
  ⟨fun r => by simp [State.getV, State.reset, Vector.get_eq_getElem], rfl, rfl, rfl,
    fun k => by simp [State.reset, Vector.get_eq_getElem], rfl, rfl, rfl, rfl,
    fun k => by simp [State.reset, Vector.get_eq_getElem], rfl, background_font, fun _ => background_eq_zero⟩

end Sys2Proof.Machine
end

section
/-! What follows an instruction step in the tick (40_fetch_dispatch.md R107 to R110). -/

namespace Sys2Proof.Machine

/-- A timer stops at zero (10_state.md R31). -/
theorem countDown_eq (b : Byte) : (if 0 < b.toNat then b - 1 else b) = if b = 0 then 0 else b - 1 := by
  by_cases hb : b = 0
  · subst hb
    rfl
  · have hpos : 0 < b.toNat := by bv_omega
    rw [if_pos hpos, if_neg hb]

/-- The sound timer is running exactly when it is not zero. -/
theorem decide_toNat_pos (b : Byte) : decide (0 < b.toNat) = decide (b ≠ 0) := by
  congr 1
  rw [eq_iff_iff]
  bv_omega

theorem endInstr_of_fault {t : State} (h : t.fault ≠ none) : endInstr t = t :=
  if_pos (Option.isSome_iff_ne_none.2 h)

theorem endInstr_of_inside {t : State} (hf : t.fault = none) (h : t.burst + 1 < t.ipt) :
    endInstr t = { t with burst := t.burst + 1 } := by
  rw [endInstr, hf]
  exact if_pos h

theorem endInstr_of_last {t : State} (hf : t.fault = none) (h : t.ipt ≤ t.burst + 1) :
    endInstr t = tickEnd t := by
  rw [endInstr, hf]
  exact if_neg (Nat.not_lt.2 h)

/-- Settles O9: the three branches of `endInstr`, and the countdown of the timers at the tick's end. -/
theorem sequencerAfterAnInstruction : Obligations.SequencerAfterAnInstruction := by
  refine fun t => ⟨fun hf => ?_, fun hf h => ?_, fun hf h => ?_⟩
  · rw [afterInstr, endInstr_of_fault hf]
  · rw [afterInstr, endInstr_of_inside hf h]
  · rw [afterInstr, endInstr_of_last hf h, ← countDown_eq, ← countDown_eq, ← decide_toNat_pos]
    rfl

end Sys2Proof.Machine
end

section
/-! The tick of R107 and the steps of the machine. The two keep the burst position differently: the tick of R107 leaves
it alone and the machine counts it. No instruction step reads it, so the two runs stay equal but for that field. -/

namespace Sys2Proof.Machine

/-- `s` at another burst position. -/
def State.setBurst (s : State) (b : Nat) : State := { s with burst := b }

theorem State.setBurst_of_burst {s : State} {b : Nat} (h : s.burst = b) : s.setBurst b = s := by
  subst h
  rfl

/-! No instruction step reads the burst position or writes it. -/

theorem withRange_setBurst {base count b : Nat} {s t u : State} (hu : u = t.setBurst b) :
    withRange base count (s.setBurst b) u = mapNext (·.setBurst b) (withRange base count s t) := by
  subst hu
  unfold withRange
  split <;> rfl

theorem keySkip_setBurst (x : Reg) (c : Bool) (b : Nat) (s : State) :
    keySkip x c (s.setBurst b) = mapNext (·.setBurst b) (keySkip x c s) := by
  show (if keyIndexOk (s.getV x) then _ else _) = mapNext _ (if keyIndexOk (s.getV x) then _ else _)
  split <;> rfl

theorem execCall_setBurst (nnn : Lit12) (b : Nat) (s : State) :
    execCall nnn (s.setBurst b) = mapNext (·.setBurst b) (execCall nnn s) := by
  unfold execCall
  by_cases hsp : s.sp.val < Config.stackCap
  · rw [State.push_of_free s _ hsp, State.push_of_free (s.setBurst b) _ hsp]
    rfl
  · have hfull := State.sp_eq_stackCap hsp
    rw [State.push_of_full s _ hfull, State.push_of_full (s.setBurst b) _ hfull]
    rfl

theorem execRet_setBurst (b : Nat) (s : State) :
    execRet (s.setBurst b) = mapNext (·.setBurst b) (execRet s) := by
  unfold execRet
  by_cases hsp : s.sp.val = 0
  · rw [State.pop_of_empty s hsp, State.pop_of_empty (s.setBurst b) hsp]
    rfl
  · obtain ⟨k, hk⟩ := State.exists_topSlot hsp
    rw [State.pop_of_held s k hk, State.pop_of_held (s.setBurst b) k hk]
    rfl

theorem execLdKey_setBurst (x : Reg) (b : Nat) (s : State) :
    execLdKey x (s.setBurst b) = mapNext (·.setBurst b) (execLdKey x s) := by
  have hkey : (s.setBurst b).firstKey = s.firstKey := rfl
  rw [execLdKey, execLdKey, hkey]
  cases s.firstKey <;> rfl

theorem exec_setBurst (i : Instr) (s : State) (b : Nat) :
    exec i (s.setBurst b) = mapNext (·.setBurst b) (exec i s) := by
  cases i with
  | ret x => exact execRet_setBurst b s
  | call nnn => exact execCall_setBurst nnn b s
  | drw | ldBcd | storeRegs | loadRegs => exact withRange_setBurst rfl
  | skp | sknp => exact keySkip_setBurst _ _ b s
  | ldKey x => exact execLdKey_setBurst x b s
  | _ => rfl

theorem execWord_setBurst (w : Word) (s : State) (b : Nat) :
    execWord w (s.setBurst b) = mapNext (·.setBurst b) (execWord w s) := by
  unfold execWord
  cases decodeWord w with
  | ok i => exact exec_setBurst i s b
  | error e => rfl

theorem instrStep_setBurst (s : State) (b : Nat) :
    instrStep (s.setBurst b) = mapNext (·.setBurst b) (instrStep s) := by
  have hfault : (s.setBurst b).fault = s.fault := rfl
  have hfetch : fetch (s.setBurst b) = fetch s := rfl
  rw [instrStep, instrStep, hfault, hfetch]
  split
  · rfl
  · cases fetch s with
    | error a => rfl
    | ok w => exact execWord_setBurst w s b

theorem Steps.keepsBurst {s t : State} (h : Steps s t) : t.burst = s.burst ∧ t.ipt = s.ipt := by
  cases h with
  | frozen _ ht | fetchFault _ _ ht | malformed _ _ _ _ ht => rw [ht]; exact ⟨rfl, rfl⟩
  | instr i _ _ _ hex => exact ⟨hex.keepsOutside.burst, hex.keepsOutside.ipt⟩

/-! The two runs of a tick -/

/-- The rest of a tick as R107 writes it: `n` instruction steps, then the timer update unless one of them faulted. -/
def tickRest (n : Nat) (s : State) : Host.Outcome State Fault Refusal :=
  match burstSteps n s with
  | .next t => if t.fault.isSome then .next t else .next (tickEnd t)
  | .fault f => .fault f
  | .refused r => .refused r

theorem tick_eq_tickRest (s : State) : tick s = tickRest s.ipt s := rfl

theorem tickRest_zero {s : State} (hf : s.fault = none) : tickRest 0 s = .next (tickEnd s) := by
  simp [tickRest, burstSteps, hf]

/-- A fault ends the tick at once (40_fetch_dispatch.md R109). -/
theorem tickRest_succ_of_fault {n : Nat} {s t : State} (h : instrStep s = .next t) (hf : t.fault ≠ none) :
    tickRest (n + 1) s = .next t := by
  have hsome : t.fault.isSome = true := Option.isSome_iff_ne_none.2 hf
  simp only [tickRest, burstSteps, h, if_pos hsome]

theorem tickRest_succ {n : Nat} {s t : State} (h : instrStep s = .next t) (hf : t.fault = none) :
    tickRest (n + 1) s = tickRest n t := by
  simp [tickRest, burstSteps, h, hf]

/-- A run goes on from the state its first step answers. -/
theorem coreRun_succ {M : Host.Core} {n : Nat} {s t : M.State} (h : M.step s = .next t) :
    M.run (n + 1) s = M.run n t := by
  rw [Host.Core.run, h]

theorem run_succ {n : Nat} {s t : State} (h : step s = .next t) : core.run (n + 1) s = core.run n t :=
  coreRun_succ (M := core) h

/-- A step of the machine at any burst position, by the instruction step at another. -/
theorem step_setBurst {s t : State} (h : instrStep s = .next t) (b : Nat) :
    step (s.setBurst b) = .next (endInstr (t.setBurst b)) := by
  rw [step, instrStep_setBurst, h]
  rfl

/-- A faulted core steps to itself (R112). -/
theorem step_of_fault {s : State} (h : s.fault ≠ none) : step s = .next s := by
  rw [step, instrStep, if_pos (Option.isSome_iff_ne_none.2 h), afterInstr, endInstr_of_fault h]

theorem run_of_fault {s : State} (h : s.fault ≠ none) (n : Nat) : core.run n s = .next s := by
  induction n with
  | zero => rfl
  | succ n ih => rw [run_succ (step_of_fault h), ih]

/-- What the machine reaches by `n` steps from burst position `b` is what the rest of the tick of R107 reaches, but for
the burst position, which a fault leaves where it was. -/
def StepsAreTickRest (n b : Nat) (s : State) : Prop :=
  ∃ u, core.run n (s.setBurst b) = .next u ∧ tickRest n s = .next (u.setBurst 0) ∧ (u.fault = none → u.burst = 0)

/-- Where an instruction step faults, the machine stays there for the rest of the tick. -/
theorem stepsAreTickRest_of_fault {n b : Nat} {s t : State} (h : instrStep s = .next t) (ht : t.fault ≠ none)
    (hb : t.burst = 0) : StepsAreTickRest (n + 1) b s := by
  refine ⟨t.setBurst b, ?_, ?_, fun hf => absurd hf ht⟩
  · have hstep : step (s.setBurst b) = .next (t.setBurst b) := by
      rw [step_setBurst h, endInstr_of_fault (t := t.setBurst b) ht]
    rw [run_succ hstep]
    exact run_of_fault (s := t.setBurst b) ht n
  · rw [tickRest_succ_of_fault h ht]
    exact congrArg _ (State.setBurst_of_burst hb).symm

/-- From a position with `n + 1` steps left, the machine's steps are the rest of the tick. -/
theorem stepsAreTickRest (n b : Nat) (s : State) (hs : s.burst = 0) (hb : b + (n + 1) = s.ipt) :
    StepsAreTickRest (n + 1) b s := by
  induction n generalizing b s with
  | zero =>
    obtain ⟨t, ht, hst⟩ := instrStep_steps s
    obtain ⟨hburst, hipt⟩ := hst.keepsBurst
    by_cases hf : t.fault = none
    · have hlast : endInstr (t.setBurst b) = tickEnd t :=
        endInstr_of_last (t := t.setBurst b) hf (by show t.ipt ≤ b + 1; omega)
      exact ⟨tickEnd t, by rw [run_succ (step_setBurst ht b), hlast]; rfl,
        by rw [tickRest_succ ht hf, tickRest_zero hf]; rfl, fun _ => rfl⟩
    · exact stepsAreTickRest_of_fault ht hf (hburst.trans hs)
  | succ n ih =>
    obtain ⟨t, ht, hst⟩ := instrStep_steps s
    obtain ⟨hburst, hipt⟩ := hst.keepsBurst
    by_cases hf : t.fault = none
    · have hinside : endInstr (t.setBurst b) = t.setBurst (b + 1) :=
        endInstr_of_inside (t := t.setBurst b) hf (by show b + 1 < t.ipt; omega)
      obtain ⟨u, hrun, htick, hu⟩ := ih (b + 1) t (hburst.trans hs) (by omega)
      exact ⟨u, by rw [run_succ (step_setBurst ht b), hinside, hrun], by rw [tickRest_succ ht hf, htick], hu⟩
    · exact stepsAreTickRest_of_fault ht hf (hburst.trans hs)

/-- Settles O17: a tick boundary is burst position 0 with all `IPT` steps left. -/
theorem tickIsBurstThenTimerUpdate : Obligations.TickIsBurstThenTimerUpdate := by
  intro s hipt hs
  obtain ⟨n, hn⟩ : ∃ n, s.ipt = n + 1 := Nat.exists_eq_add_one.2 hipt
  obtain ⟨u, hrun, htick, hu⟩ := stepsAreTickRest n 0 s hs (by omega)
  rw [State.setBurst_of_burst hs] at hrun
  exact ⟨u, hn ▸ hrun, by rw [tick_eq_tickRest, hn, htick]; rfl, hu⟩

end Sys2Proof.Machine
end

section
/-! Memory (20_memory.md) and the display: which bytes and which cells an instruction leaves alone, the fault of a data
access past 0xFFF, and what a fetch reads after a store. -/

namespace Sys2Proof.Machine

/-- Settles O29: memory is in the class of the stores alone, and byte writes from `I` on leave every address outside
their range alone. -/
theorem memoryFrame : Obligations.MemoryFrame := by
  intro i s t a h ha
  rcases executes_of_exec h with ⟨f, -, rfl⟩ | ⟨-, hc⟩
  · rfl
  · cases hc with
    | store bs _ hlen ht =>
      rw [ht]
      exact Memory.read_writeBytes_outside bs s.mem _ a (hlen ▸ ha)
    | regs _ _ ht | sample _ _ ht | index _ _ ht | display _ _ _ ht | setDt _ _ ht | setSt _ _ ht | call _ _ _ ht
    | ret _ _ _ _ ht => rw [ht]

/-- Settles O30: the display is in the class of the instructions that write it alone. -/
theorem displayFrame : Obligations.DisplayFrame := by
  intro i s t h hi
  rcases executes_of_exec h with ⟨f, -, rfl⟩ | ⟨-, hc⟩
  · rfl
  · cases hc with
    | display _ hi' _ _ => exact absurd (hi.symm.trans hi') Bool.false_ne_true
    | regs _ _ ht | sample _ _ ht | index _ _ ht | store _ _ _ ht | setDt _ _ ht | setSt _ _ ht | call _ _ _ ht
    | ret _ _ _ _ ht => rw [ht]

/-- Where the table of causes lists a fault, the instruction takes it (60_exceptions.md R201 to R203). -/
theorem takesFault_of_faultOf {i : Instr} {s : State} {f : Fault} (hf : faultOf i s = some f) :
    TakesFault (exec i s) s f := by
  obtain ⟨t, ht, hex⟩ := exec_executes i s
  rcases hex with ⟨g, hg, rfl⟩ | ⟨hnone, -⟩
  · cases hg.symm.trans hf
    exact ht
  · cases hnone.symm.trans hf

/-- Settles O48: in each clause the condition is the one under which the table of causes lists the fault. -/
theorem dataAccessPastTheEndFaults : Obligations.DataAccessPastTheEndFaults := by
  refine fun x y n s => ⟨fun h => takesFault_of_faultOf (if_pos h),
    fun h => ⟨takesFault_of_faultOf (if_pos h), takesFault_of_faultOf (if_pos h)⟩, ?_⟩
  rintro rows rfl hpos h
  exact takesFault_of_faultOf (if_pos ⟨hpos, h⟩)

/-- A block store that stays in memory writes its bytes from `I` on (43_index_memory.md R165). -/
theorem exec_storeRegs_of_in {x : Reg} {s : State} (h : s.i.toNat + x.val ≤ 0xFFF) :
    exec (.storeRegs x) s = .next (s.advance.setMem (Memory.writeBytes s.mem (dataAddr s) (lowRegs s x))) :=
  withRange_of_in _ _ _ _ (.inr (by simp only [dataAddr, regCount]; omega))

/-- Register `k` of a block store reads back at `I + k` (R165). -/
theorem read_writeBytes_lowRegs {x k : Reg} {s : State} (hm : Memory.wf s.mem) (h : s.i.toNat + x.val ≤ 0xFFF)
    (hk : k ≤ x) :
    Memory.read (Memory.writeBytes s.mem (dataAddr s) (lowRegs s x)) (dataAddr s + k.val) = s.getV k := by
  have hfits : dataAddr s + (lowRegs s x).length ≤ Config.memSize := by
    simp only [length_lowRegs, dataAddr, Config.memSize]
    omega
  have hin : dataAddr s ≤ dataAddr s + k.val ∧ dataAddr s + k.val < dataAddr s + (lowRegs s x).length := by
    rw [length_lowRegs]
    exact ⟨Nat.le_add_right _ _, Nat.add_lt_add_left (Nat.lt_succ_of_le hk) _⟩
  rw [Memory.read_writeBytes _ _ _ _ hm hfits, if_pos hin, Nat.add_sub_cancel_left, getD_lowRegs s x k hk]

/-- Settles O50: the store puts `V[0]` and `V[1]` at the two addresses which the next fetch reads, since `I` is the
address of the next word. -/
theorem storedWordIsFetched : Obligations.StoredWordIsFetched := by
  intro s t hm hi hpc h
  have haddr : (s.pc + 2).toNat = s.pc.toNat + 2 := by bv_omega
  have hin : s.i.toNat + (1 : Reg).val ≤ 0xFFF := by
    rw [hi, haddr]
    exact hpc
  cases (exec_storeRegs_of_in hin).symm.trans h
  have hhigh := read_writeBytes_lowRegs (k := 0) hm hin (by decide)
  have hlow := read_writeBytes_lowRegs (k := 1) hm hin (by decide)
  rw [fetch_of_in _ (by rw [State.setMem_pc, State.advance_pc]; omega), State.setMem_mem, State.setMem_pc,
    State.advance_pc, ← hi]
  exact congrArg Except.ok (congrArg₂ wordOfBytes hhigh hlow)

end Sys2Proof.Machine
end

section
/-! The encoding (30_encoding.md): the decoder and the encoder are inverse to each other, and the opcode map says what
the decoder does. -/

namespace Sys2Proof

/-! A word is put together from its fields, in each of the three formats (R82, R85). -/

theorem formatNNN_fields {w : Word} {k : Nibble} (hk : (fields w).key = k) : formatNNN k (fields w).nnn = w := by
  subst hk
  apply BitVec.eq_of_toNat_eq
  rw [toNat_formatNNN, toNat_fields_key, toNat_fields_nnn]
  omega

theorem formatXNN_fields {w : Word} {k : Nibble} {nn : Byte} (hk : (fields w).key = k) (hnn : (fields w).nn = nn) :
    formatXNN k (fields w).x nn = w := by
  subst hk hnn
  apply BitVec.eq_of_toNat_eq
  rw [toNat_formatXNN, toNat_fields_key, val_fields_x, toNat_fields_nn]
  omega

theorem formatXYN_fields {w : Word} {k n : Nibble} (hk : (fields w).key = k) (hn : (fields w).n = n) :
    formatXYN k (fields w).x (fields w).y n = w := by
  subst hk hn
  apply BitVec.eq_of_toNat_eq
  rw [toNat_formatXYN, toNat_fields_key, val_fields_x, val_fields_y, toNat_fields_n]
  omega

/-! What the decoder answers is what dispatch on the fields selects (R86). -/

theorem decodeWord_eq_ok_iff {w : Word} {i : Instr} : decodeWord w = .ok i ↔ dispatchKey (fields w) = some i := by
  unfold decodeWord
  cases dispatchKey (fields w) <;> simp

theorem decodeWord_eq_malformed_iff {w : Word} :
    decodeWord w = .error (.malformed w) ↔ dispatchKey (fields w) = none := by
  unfold decodeWord
  cases dispatchKey (fields w) <;> simp

/-- Dispatch by the key alone (R86): `o` is what the handler of the key in `f` answers. -/
inductive Dispatches (f : Fields) : Option Instr → Prop where
  | key0 (hk : f.key = 0x0) : Dispatches f (dispatch0 f)
  | key1 (hk : f.key = 0x1) : Dispatches f (some (.jp f.nnn))
  | key2 (hk : f.key = 0x2) : Dispatches f (some (.call f.nnn))
  | key3 (hk : f.key = 0x3) : Dispatches f (some (.seImm f.x f.nn))
  | key4 (hk : f.key = 0x4) : Dispatches f (some (.sneImm f.x f.nn))
  | key5 (hk : f.key = 0x5) : Dispatches f (dispatch5 f)
  | key6 (hk : f.key = 0x6) : Dispatches f (some (.ldImm f.x f.nn))
  | key7 (hk : f.key = 0x7) : Dispatches f (some (.addImm f.x f.nn))
  | key8 (hk : f.key = 0x8) : Dispatches f (dispatch8 f)
  | key9 (hk : f.key = 0x9) : Dispatches f (some (.sneReg f.x f.y f.n))
  | keyA (hk : f.key = 0xA) : Dispatches f (some (.ldI f.nnn))
  | keyB (hk : f.key = 0xB) : Dispatches f (some (.jpV0 f.nnn))
  | keyC (hk : f.key = 0xC) : Dispatches f (some (.rnd f.x f.nn))
  | keyD (hk : f.key = 0xD) : Dispatches f (some (.drw f.x f.y f.n))
  | keyE (hk : f.key = 0xE) : Dispatches f (dispatchE f)
  | keyF (hk : f.key = 0xF) : Dispatches f (dispatchF f)

/-- The branches of `dispatchKey`; the last one is left with key 0xF. -/
theorem dispatchKey_dispatches (f : Fields) : Dispatches f (dispatchKey f) := by
  unfold dispatchKey
  refine iteInduction .key0 fun h0 => iteInduction .key1 fun h1 => iteInduction .key2 fun h2 =>
    iteInduction .key3 fun h3 => iteInduction .key4 fun h4 => iteInduction .key5 fun h5 =>
    iteInduction .key6 fun h6 => iteInduction .key7 fun h7 => iteInduction .key8 fun h8 =>
    iteInduction .key9 fun h9 => iteInduction .keyA fun hA => iteInduction .keyB fun hB =>
    iteInduction .keyC fun hC => iteInduction .keyD fun hD => iteInduction .keyE fun hE => .keyF ?_
  bv_omega

/-! From the instruction to its word and back -/

/-- Dispatch finds in the word of an instruction the key, the sub-selector and the operands that its format laid
down. The cases are grouped by format and handler. -/
theorem dispatchKey_encode (i : Instr) : dispatchKey (fields (encode i)) = some i := by
  cases i with
  | jp | call | ldI | jpV0 => simp [encode, dispatchKey, key_formatNNN, nnn_formatNNN]
  | seImm | sneImm | ldImm | addImm | rnd =>
    simp [encode, dispatchKey, key_formatXNN, x_formatXNN, nn_formatXNN]
  | sneReg | drw => simp [encode, dispatchKey, key_formatXYN, x_formatXYN, y_formatXYN, n_formatXYN]
  | cls | ret => simp [encode, dispatchKey, dispatch0, key_formatXNN, x_formatXNN, nn_formatXNN]
  | seReg => simp [encode, dispatchKey, dispatch5, key_formatXYN, x_formatXYN, y_formatXYN, n_formatXYN]
  | ldReg | orReg | andReg | xorReg | addReg | sub | shr | subn | shl =>
    simp [encode, dispatchKey, dispatch8, key_formatXYN, x_formatXYN, y_formatXYN, n_formatXYN]
  | skp | sknp => simp [encode, dispatchKey, dispatchE, key_formatXNN, x_formatXNN, nn_formatXNN]
  | ldFromDt | ldKey | ldDt | ldSt | addI | ldFont | ldBcd | storeRegs | loadRegs =>
    simp [encode, dispatchKey, dispatchF, key_formatXNN, x_formatXNN, nn_formatXNN]

/-- Settles O1: dispatch on the fields of the encoded word selects the instruction again. -/
theorem decodeOfEncodeIsIdentity : Obligations.DecodeOfEncodeIsIdentity :=
  fun i => decodeWord_eq_ok_iff.2 (dispatchKey_encode i)

/-! From a word to its instruction and back: each branch of a handler names an instruction whose format puts the
word together again, since the branch has tested the key and the sub-selector. -/

section Handlers

variable {w : Word} {i : Instr}

theorem encode_of_dispatch0 (hk : (fields w).key = 0x0) (h : dispatch0 (fields w) = some i) : encode i = w := by
  unfold dispatch0 at h
  split_ifs at h <;> cases h <;> exact formatXNN_fields hk ‹_›

theorem encode_of_dispatch5 (hk : (fields w).key = 0x5) (h : dispatch5 (fields w) = some i) : encode i = w := by
  unfold dispatch5 at h
  split_ifs at h with hn
  cases h
  exact formatXYN_fields hk hn

theorem encode_of_dispatch8 (hk : (fields w).key = 0x8) (h : dispatch8 (fields w) = some i) : encode i = w := by
  unfold dispatch8 at h
  split_ifs at h <;> cases h <;> exact formatXYN_fields hk ‹_›

theorem encode_of_dispatchE (hk : (fields w).key = 0xE) (h : dispatchE (fields w) = some i) : encode i = w := by
  unfold dispatchE at h
  split_ifs at h <;> cases h <;> exact formatXNN_fields hk ‹_›

theorem encode_of_dispatchF (hk : (fields w).key = 0xF) (h : dispatchF (fields w) = some i) : encode i = w := by
  unfold dispatchF at h
  split_ifs at h <;> cases h <;> exact formatXNN_fields hk ‹_›

theorem Dispatches.encode_eq {o : Option Instr} (h : Dispatches (fields w) o) (ho : o = some i) : encode i = w := by
  cases h with
  | key0 hk => exact encode_of_dispatch0 hk ho
  | key5 hk => exact encode_of_dispatch5 hk ho
  | key8 hk => exact encode_of_dispatch8 hk ho
  | keyE hk => exact encode_of_dispatchE hk ho
  | keyF hk => exact encode_of_dispatchF hk ho
  | key1 hk | key2 hk | keyA hk | keyB hk => cases ho; exact formatNNN_fields hk
  | key3 hk | key4 hk | key6 hk | key7 hk | keyC hk => cases ho; exact formatXNN_fields hk rfl
  | key9 hk | keyD hk => cases ho; exact formatXYN_fields hk rfl

end Handlers

/-- Settles O2: whatever handler selected the instruction, its format puts the word together again. -/
theorem encodeOfDecodeIsIdentity : Obligations.EncodeOfDecodeIsIdentity :=
  fun w _ h => (dispatchKey_dispatches (fields w)).encode_eq (decodeWord_eq_ok_iff.1 h)

/-! The opcode map (R87) -/

/-- The laws of the opcode map, one for each constructor, as one. -/
theorem row_selects_encode (i : Instr) : Laws.OpcodeRow.Statement i := by
  cases i with
  | cls x => exact Laws.OpcodeRow.cls x
  | ret x => exact Laws.OpcodeRow.ret x
  | jp nnn => exact Laws.OpcodeRow.jp nnn
  | call nnn => exact Laws.OpcodeRow.call nnn
  | seImm x nn => exact Laws.OpcodeRow.seImm x nn
  | sneImm x nn => exact Laws.OpcodeRow.sneImm x nn
  | seReg x y => exact Laws.OpcodeRow.seReg x y
  | ldImm x nn => exact Laws.OpcodeRow.ldImm x nn
  | addImm x nn => exact Laws.OpcodeRow.addImm x nn
  | ldReg x y => exact Laws.OpcodeRow.ldReg x y
  | orReg x y => exact Laws.OpcodeRow.orReg x y
  | andReg x y => exact Laws.OpcodeRow.andReg x y
  | xorReg x y => exact Laws.OpcodeRow.xorReg x y
  | addReg x y => exact Laws.OpcodeRow.addReg x y
  | sub x y => exact Laws.OpcodeRow.sub x y
  | shr x y => exact Laws.OpcodeRow.shr x y
  | subn x y => exact Laws.OpcodeRow.subn x y
  | shl x y => exact Laws.OpcodeRow.shl x y
  | sneReg x y n => exact Laws.OpcodeRow.sneReg x y n
  | ldI nnn => exact Laws.OpcodeRow.ldI nnn
  | jpV0 nnn => exact Laws.OpcodeRow.jpV0 nnn
  | rnd x nn => exact Laws.OpcodeRow.rnd x nn
  | drw x y n => exact Laws.OpcodeRow.drw x y n
  | skp x => exact Laws.OpcodeRow.skp x
  | sknp x => exact Laws.OpcodeRow.sknp x
  | ldFromDt x => exact Laws.OpcodeRow.ldFromDt x
  | ldKey x => exact Laws.OpcodeRow.ldKey x
  | ldDt x => exact Laws.OpcodeRow.ldDt x
  | ldSt x => exact Laws.OpcodeRow.ldSt x
  | addI x => exact Laws.OpcodeRow.addI x
  | ldFont x => exact Laws.OpcodeRow.ldFont x
  | ldBcd x => exact Laws.OpcodeRow.ldBcd x
  | storeRegs x => exact Laws.OpcodeRow.storeRegs x
  | loadRegs x => exact Laws.OpcodeRow.loadRegs x

theorem encode_and_mask (i : Instr) : encode i &&& i.row.mask = i.row.fixed :=
  beq_iff_eq.1 (row_selects_encode i)

/-- A field that lies wholly under a row's mask has in every selected word the value it has in the row. -/
theorem extractLsb'_of_and_eq {w mask fixed : Word} {start len : Nat} (h : w &&& mask = fixed)
    (hm : mask.extractLsb' start len = BitVec.allOnes len) :
    w.extractLsb' start len = fixed.extractLsb' start len := by
  rw [← h, BitVec.extractLsb'_and, hm, BitVec.and_allOnes]

section Selected

variable {w mask fixed : Word} (h : w &&& mask = fixed)
include h

theorem fields_key_of_and_eq {k : Nibble} (hm : (fields mask).key = 0xF) (hk : (fields fixed).key = k) :
    (fields w).key = k :=
  (extractLsb'_of_and_eq h hm).trans hk

theorem fields_nn_of_and_eq {nn : Byte} (hm : (fields mask).nn = 0xFF) (hnn : (fields fixed).nn = nn) :
    (fields w).nn = nn :=
  (extractLsb'_of_and_eq h hm).trans hnn

theorem fields_n_of_and_eq {n : Nibble} (hm : (fields mask).n = 0xF) (hn : (fields fixed).n = n) :
    (fields w).n = n :=
  (extractLsb'_of_and_eq h hm).trans hn

end Selected

/-- The instruction of `i`'s row of the opcode map with the operands that stand in the fields `f`. -/
def Instr.withOperands (i : Instr) (f : Fields) : Instr :=
  match i with
  | .cls _ => .cls f.x
  | .ret _ => .ret f.x
  | .jp _ => .jp f.nnn
  | .call _ => .call f.nnn
  | .seImm _ _ => .seImm f.x f.nn
  | .sneImm _ _ => .sneImm f.x f.nn
  | .seReg _ _ => .seReg f.x f.y
  | .ldImm _ _ => .ldImm f.x f.nn
  | .addImm _ _ => .addImm f.x f.nn
  | .ldReg _ _ => .ldReg f.x f.y
  | .orReg _ _ => .orReg f.x f.y
  | .andReg _ _ => .andReg f.x f.y
  | .xorReg _ _ => .xorReg f.x f.y
  | .addReg _ _ => .addReg f.x f.y
  | .sub _ _ => .sub f.x f.y
  | .shr _ _ => .shr f.x f.y
  | .subn _ _ => .subn f.x f.y
  | .shl _ _ => .shl f.x f.y
  | .sneReg _ _ _ => .sneReg f.x f.y f.n
  | .ldI _ => .ldI f.nnn
  | .jpV0 _ => .jpV0 f.nnn
  | .rnd _ _ => .rnd f.x f.nn
  | .drw _ _ _ => .drw f.x f.y f.n
  | .skp _ => .skp f.x
  | .sknp _ => .sknp f.x
  | .ldFromDt _ => .ldFromDt f.x
  | .ldKey _ => .ldKey f.x
  | .ldDt _ => .ldDt f.x
  | .ldSt _ => .ldSt f.x
  | .addI _ => .addI f.x
  | .ldFont _ => .ldFont f.x
  | .ldBcd _ => .ldBcd f.x
  | .storeRegs _ => .storeRegs f.x
  | .loadRegs _ => .loadRegs f.x

theorem row_withOperands (i : Instr) (f : Fields) : (i.withOperands f).row = i.row := by
  cases i <;> rfl

/-- A word that a row selects is the word of the row's instruction with the operands in the word's own fields. The
cases are grouped by format and by the fields under the mask: the key, or the key and the sub-selector. -/
theorem encode_withOperands {w : Word} {i : Instr} (h : w &&& i.row.mask = i.row.fixed) :
    encode (i.withOperands (fields w)) = w := by
  cases i with
  | jp | call | ldI | jpV0 =>
    dsimp only [Instr.row] at h
    exact formatNNN_fields (fields_key_of_and_eq h rfl rfl)
  | seImm | sneImm | ldImm | addImm | rnd =>
    dsimp only [Instr.row] at h
    exact formatXNN_fields (fields_key_of_and_eq h rfl rfl) rfl
  | sneReg | drw =>
    dsimp only [Instr.row] at h
    exact formatXYN_fields (fields_key_of_and_eq h rfl rfl) rfl
  | cls | ret | skp | sknp | ldFromDt | ldKey | ldDt | ldSt | addI | ldFont | ldBcd | storeRegs | loadRegs =>
    dsimp only [Instr.row] at h
    exact formatXNN_fields (fields_key_of_and_eq h rfl rfl) (fields_nn_of_and_eq h rfl rfl)
  | seReg | ldReg | orReg | andReg | xorReg | addReg | sub | shr | subn | shl =>
    dsimp only [Instr.row] at h
    exact formatXYN_fields (fields_key_of_and_eq h rfl rfl) (fields_n_of_and_eq h rfl rfl)

/-- Settles O3: a selected word is the word of an instruction of the row, which it then decodes to; and a word that
decodes is the word of its instruction, which that instruction's row selects. -/
theorem opcodeMapRowSelectsDecodedInstr : Obligations.OpcodeMapRowSelectsDecodedInstr := by
  refine fun w i => ⟨fun h => ⟨i.withOperands (fields w), ?_, row_withOperands i _⟩, ?_⟩
  · have hdec := decodeOfEncodeIsIdentity (i.withOperands (fields w))
    rwa [encode_withOperands h] at hdec
  · rintro ⟨j, hj, hrow⟩
    rw [← hrow, ← encodeOfDecodeIsIdentity w j hj]
    exact encode_and_mask j

/-- Settles O4: a word that two rows select decodes to an instruction of each, and it decodes to one instruction. -/
theorem opcodeMapRowsAreDisjoint : Obligations.OpcodeMapRowsAreDisjoint := by
  intro i j w hi hj
  obtain ⟨a, ha, hai⟩ := (opcodeMapRowSelectsDecodedInstr w i).1 hi
  obtain ⟨b, hb, hbj⟩ := (opcodeMapRowSelectsDecodedInstr w j).1 hj
  cases ha.symm.trans hb
  exact hai.symm.trans hbj

/-! The malformed words (R88) -/

theorem fields_key_eq_iff (w : Word) (k : Nibble) : (fields w).key = k ↔ w.toNat / 4096 = k.toNat := by
  rw [← toNat_fields_key, BitVec.toNat_inj]

theorem fields_nn_eq_iff (w : Word) (nn : Byte) : (fields w).nn = nn ↔ w.toNat % 256 = nn.toNat := by
  rw [← toNat_fields_nn, BitVec.toNat_inj]

theorem fields_n_eq_iff (w : Word) (n : Nibble) : (fields w).n = n ↔ w.toNat % 16 = n.toNat := by
  rw [← toNat_fields_n, BitVec.toNat_inj]

/-- Only the five handlers that test a sub-selector reject a word. -/
theorem dispatchKey_eq_none_iff (f : Fields) :
    dispatchKey f = none ↔
      (f.key = 0x0 ∧ dispatch0 f = none) ∨ (f.key = 0x5 ∧ dispatch5 f = none) ∨
      (f.key = 0x8 ∧ dispatch8 f = none) ∨ (f.key = 0xE ∧ dispatchE f = none) ∨
      (f.key = 0xF ∧ dispatchF f = none) := by
  generalize ho : dispatchKey f = o
  have h : Dispatches f o := ho ▸ dispatchKey_dispatches f
  cases h with
  | key0 hk | key1 hk | key2 hk | key3 hk | key4 hk | key5 hk | key6 hk | key7 hk | key8 hk | key9 hk | keyA hk
  | keyB hk | keyC hk | keyD hk | keyE hk | keyF hk => simp [hk]

/-- A branch that names an instruction rejects nothing. -/
theorem ite_some_eq_none_iff {c : Prop} [Decidable c] {i : Instr} {o : Option Instr} :
    (if c then some i else o) = none ↔ ¬ c ∧ o = none := by
  split <;> simp [*]

section Handlers

variable (w : Word)

theorem dispatch0_eq_none_iff :
    dispatch0 (fields w) = none ↔ w.toNat % 256 ≠ 0xE0 ∧ w.toNat % 256 ≠ 0xEE := by
  simp [dispatch0, ite_some_eq_none_iff, fields_nn_eq_iff]

theorem dispatch5_eq_none_iff : dispatch5 (fields w) = none ↔ w.toNat % 16 ≠ 0 := by
  simp [dispatch5, fields_n_eq_iff]

theorem dispatch8_eq_none_iff :
    dispatch8 (fields w) = none ↔ w.toNat % 16 ∉ [0x0, 0x1, 0x2, 0x3, 0x4, 0x5, 0x6, 0x7, 0xE] := by
  simp [dispatch8, ite_some_eq_none_iff, fields_n_eq_iff]

theorem dispatchE_eq_none_iff :
    dispatchE (fields w) = none ↔ w.toNat % 256 ≠ 0x9E ∧ w.toNat % 256 ≠ 0xA1 := by
  simp [dispatchE, ite_some_eq_none_iff, fields_nn_eq_iff]

theorem dispatchF_eq_none_iff :
    dispatchF (fields w) = none ↔
      w.toNat % 256 ∉ [0x07, 0x0A, 0x15, 0x18, 0x1E, 0x29, 0x33, 0x55, 0x65] := by
  simp [dispatchF, ite_some_eq_none_iff, fields_nn_eq_iff]

end Handlers

/-- R88 lists for key 0x8 the sub-selectors that are left over. -/
theorem sub_selectors8_left_over : ∀ n < 16,
    n ∉ [0x0, 0x1, 0x2, 0x3, 0x4, 0x5, 0x6, 0x7, 0xE] ↔ n ∈ [0x8, 0x9, 0xA, 0xB, 0xC, 0xD, 0xF] := by
  decide

/-- Settles O5: the rejecting handlers, each with the sub-selectors it has no branch for. -/
theorem malformedWordsAreTheListedOnes : Obligations.MalformedWordsAreTheListedOnes := by
  intro w
  rw [decodeWord_eq_malformed_iff, dispatchKey_eq_none_iff, dispatch0_eq_none_iff, dispatch5_eq_none_iff,
    dispatch8_eq_none_iff, dispatchE_eq_none_iff, dispatchF_eq_none_iff,
    sub_selectors8_left_over _ (Nat.mod_lt _ (by decide))]
  simp only [fields_key_eq_iff]
  rfl

/-- Settles O6: eight of the words are the encoder's, which decode to their instructions; the ninth is read from its
bytes. -/
theorem sampleWordsDecode : Obligations.SampleWordsDecode :=
  ⟨decodeOfEncodeIsIdentity (.drw 1 2 15), decodeOfEncodeIsIdentity (.ldImm 0xA 0x3F),
    decodeOfEncodeIsIdentity (.cls 0), decodeOfEncodeIsIdentity (.seReg 0xA 0xB),
    decodeOfEncodeIsIdentity (.shl 0xA 0xB), decodeOfEncodeIsIdentity (.loadRegs 1),
    decodeOfEncodeIsIdentity (.skp 1), decodeOfEncodeIsIdentity (.jpV0 0xFFF), by decide⟩

end Sys2Proof
end

section
/-! What a word does (R89, R90): its ignored fields do nothing, and no word and no data ends a run. -/

namespace Sys2Proof.Machine

/-- No meaning reads an ignored field, so an instruction does what its canonical form does (30_encoding.md R89). -/
theorem exec_canonical (i : Instr) (s : State) : exec i.canonical s = exec i s := by
  cases i <;> rfl

/-- Settles O7: both instructions do what their common canonical form does. -/
theorem ignoredFieldsHaveNoEffect : Obligations.IgnoredFieldsHaveNoEffect := by
  intro _ _ i j _ _ hc s
  rw [← exec_canonical i, hc, exec_canonical]

/-- Settles O13: an instruction step answers a next state, and so does what follows it in the tick. -/
theorem stepAlwaysAnswersNext : Obligations.StepAlwaysAnswersNext := by
  intro s
  obtain ⟨u, -, -, hstep⟩ := step_steps s
  exact ⟨endInstr u, hstep⟩

end Sys2Proof.Machine
end

section
/-! The instruction step (40_fetch_dispatch.md R100 to R105, R112, R113): what it answers while a fault is latched,
after a fetch past 0xFFF, and after a fetch in memory. -/

namespace Sys2Proof.Machine

/-- A faulted core performs no instruction step (R112). -/
theorem instrStep_of_fault {s : State} (h : s.fault ≠ none) : instrStep s = .next s :=
  if_pos (Option.isSome_iff_ne_none.2 h)

/-- A fetch past 0xFFF (R101). -/
theorem instrStep_of_out {s : State} (hf : s.fault = none) (hpc : 0xFFF ≤ s.pc.toNat) :
    instrStep s = .next { s with fault := some (.memoryOutOfRange (max s.pc.toNat 4096)) } := by
  rw [instrStep, if_neg (by simp [hf]), fetch_of_out s hpc]
  rfl

/-- A fetch in memory: the word at `PC` is dispatched (R101, R104). -/
theorem instrStep_of_in {s : State} (hf : s.fault = none) (hpc : s.pc.toNat ≤ 0xFFE) :
    instrStep s = execWord (Memory.readWord s.mem s.pc.toNat) s := by
  rw [instrStep, if_neg (by simp [hf]), fetch_of_in s hpc]

theorem execWord_of_decode {w : Word} {i : Instr} (h : decodeWord w = .ok i) (s : State) : execWord w s = exec i s := by
  rw [execWord, h]

theorem execWord_of_malformed {w : Word} (h : ∀ i, decodeWord w ≠ .ok i) (s : State) :
    execWord w s = .next { s.advance with reports := s.reports ++ [w] } := by
  unfold execWord
  cases hw : decodeWord w with
  | ok i => exact absurd hw (h i)
  | error e => rfl

/-- Settles O8: the instruction step is the dispatch of the word at `PC`, and dispatch is `exec` where it decodes. -/
theorem stepRunsTheDecodedInstr : Obligations.StepRunsTheDecodedInstr := by
  intro s i hf hpc hw
  rw [step, instrStep_of_in hf hpc]
  exact congrArg afterInstr (execWord_of_decode hw s)

/-- Settles O10: a word that decodes to no instruction is dispatched to the reported no-op. -/
theorem malformedWordIsReportedNoOp : Obligations.MalformedWordIsReportedNoOp := by
  rintro s _ hf hpc rfl hw
  rw [instrStep_of_in hf hpc]
  exact execWord_of_malformed hw s

/-- Settles O11: the fetch's fault is latched, and a fault ends the tick with nothing after it. -/
theorem fetchPastTheEndFaults : Obligations.FetchPastTheEndFaults := by
  intro s hf hpc
  have haddr : max s.pc.toNat 4096 = if s.pc.toNat = 0xFFF then 0x1000 else s.pc.toNat := by
    split <;> omega
  rw [TakesFault, step, instrStep_of_out hf hpc, haddr, afterInstr, endInstr_of_fault (Option.some_ne_none _)]

/-- Settles O12: with a fault latched the first instruction step of a tick, where there is one, ends it. -/
theorem faultedCoreIsFrozen : Obligations.FaultedCoreIsFrozen := by
  refine fun s h => ⟨step_of_fault h, ?_⟩
  rw [tick_eq_tickRest]
  cases s.ipt with
  | zero => exact if_pos (Option.isSome_iff_ne_none.2 h)
  | succ n => exact tickRest_succ_of_fault (instrStep_of_fault h) h

/-- The word that parks a core at `a` is the jump to `a` (R113). -/
theorem parkingWord_eq_encode {a : Word} (h : a.toNat ≤ 0xFFE) :
    0x1000#16 ||| a = encode (.jp (a.setWidth 12)) := by
  apply BitVec.eq_of_toNat_eq
  have hor : 4096 ||| a.toNat = 4096 + a.toNat :=
    (Nat.two_pow_add_eq_or_of_lt (i := 12) (by omega) 1).symm
  have hlow : a.toNat % 4096 = a.toNat := Nat.mod_eq_of_lt (by omega)
  rw [BitVec.toNat_or, encode, toNat_formatNNN, BitVec.toNat_setWidth]
  simp [hor, hlow]

/-- The literal of a jump to an address in memory names that address (30_encoding.md R84). -/
theorem addrOf_setWidth {a : Word} (h : a.toNat ≤ 0xFFE) : addrOf (a.setWidth 12) = a := by
  apply BitVec.eq_of_toNat_eq
  rw [toNat_addrOf, BitVec.toNat_setWidth]
  omega

/-- Settles O21: the word at `PC` decodes to the jump to `PC`, which writes `PC` with its own value; a faulted core
stands still anyway. -/
theorem parkedStateStaysParked : Obligations.ParkedStateStaysParked := by
  rintro s ⟨hpc, hword⟩
  by_cases hf : s.fault = none
  · have hdecode : decodeWord (0x1000#16 ||| s.pc) = .ok (.jp (s.pc.setWidth 12)) := by
      rw [parkingWord_eq_encode hpc, decodeOfEncodeIsIdentity]
    calc instrStep s = execJp (s.pc.setWidth 12) s := by
          rw [instrStep_of_in hf hpc, hword, execWord_of_decode hdecode, exec]
      _ = .next s := by
          rw [execJp, addrOf_setWidth hpc]
          rfl
  · exact instrStep_of_fault hf

end Sys2Proof.Machine
end

section
/-! The timer update, iterated (40_fetch_dispatch.md R108). -/

namespace Sys2Proof.Machine

/-- One update counts a timer down by 1, stopping at 0. -/
theorem toNat_countDown (b : Byte) : (if 0 < b.toNat then b - 1 else b).toNat = b.toNat - 1 := by
  split <;> bv_omega

/-- A timer that each update counts down by 1 is counted down by `k` after `k` updates. -/
theorem toNat_iterate_timerUpdate {timer : State → Byte}
    (h : ∀ s, (timer (timerUpdate s)).toNat = (timer s).toNat - 1) (k : Nat) (s : State) :
    (timer (timerUpdate^[k] s)).toNat = (timer s).toNat - k := by
  induction k generalizing s with
  | zero => rfl
  | succ k ih =>
    rw [Function.iterate_succ_apply, ih, h]
    omega

theorem toNat_dt_iterate_timerUpdate (k : Nat) (s : State) : (timerUpdate^[k] s).dt.toNat = s.dt.toNat - k :=
  toNat_iterate_timerUpdate (timer := State.dt) (fun s => toNat_countDown s.dt) k s

theorem toNat_st_iterate_timerUpdate (k : Nat) (s : State) : (timerUpdate^[k] s).st.toNat = s.st.toNat - k :=
  toNat_iterate_timerUpdate (timer := State.st) (fun s => toNat_countDown s.st) k s

/-- The tone is the last update's: on where the sound timer had not yet run out before it. -/
theorem tone_iterate_timerUpdate {k : Nat} (hk : 0 < k) (s : State) :
    (timerUpdate^[k] s).tone = decide (k ≤ s.st.toNat) := by
  obtain ⟨n, rfl⟩ := Nat.exists_eq_add_one.2 hk
  have htone : (timerUpdate (timerUpdate^[n] s)).tone = decide (0 < (timerUpdate^[n] s).st.toNat) := rfl
  rw [Function.iterate_succ_apply', htone, toNat_st_iterate_timerUpdate, decide_eq_decide]
  omega

theorem iterate_timerUpdate_frame (k : Nat) (s : State) :
    timerUpdate^[k] s = { s with
      dt := (timerUpdate^[k] s).dt, st := (timerUpdate^[k] s).st, tone := (timerUpdate^[k] s).tone } := by
  induction k generalizing s with
  | zero => rfl
  | succ k ih => exact ih (timerUpdate s)

/-- Settles O18: the two countdowns, the tone of the last update, and the frame. -/
theorem timerUpdatesCountDown : Obligations.TimerUpdatesCountDown :=
  fun k s => ⟨toNat_dt_iterate_timerUpdate k s, toNat_st_iterate_timerUpdate k s,
    fun hk => tone_iterate_timerUpdate hk s, iterate_timerUpdate_frame k s⟩

end Sys2Proof.Machine
end

section
/-! The inputs of the environment (40_fetch_dispatch.md R114): the keypad and the random samples matter only to the
instructions that read them. Both inputs are changed at once, so that one walk over the instructions serves both. -/

namespace Sys2Proof.Machine

/-- `s` with other key states and another random input. -/
def State.withInputs (s : State) (k : Keypad) (r : List Byte) (d : Nat) : State :=
  { s with key := k, rndIn := r, draws := d }

section Inputs

variable (s : State) (k : Keypad) (r : List Byte) (d : Nat)

theorem State.push_withInputs (w : Word) :
    (s.withInputs k r d).push w = (s.push w).map (·.withInputs k r d) := by
  by_cases hsp : s.sp.val < Config.stackCap
  · rw [State.push_of_free s w hsp]
    exact State.push_of_free (s.withInputs k r d) w hsp
  · have hfull := State.sp_eq_stackCap hsp
    rw [State.push_of_full s w hfull]
    exact State.push_of_full (s.withInputs k r d) w hfull

theorem State.pop_withInputs :
    (s.withInputs k r d).pop = s.pop.map (Prod.map (·.withInputs k r d) id) := by
  by_cases hsp : s.sp.val = 0
  · rw [State.pop_of_empty s hsp]
    exact State.pop_of_empty (s.withInputs k r d) hsp
  · obtain ⟨j, hj⟩ := State.exists_topSlot hsp
    rw [State.pop_of_held s j hj]
    exact State.pop_of_held (s.withInputs k r d) j hj

theorem execCall_withInputs (nnn : Lit12) :
    execCall nnn (s.withInputs k r d) = mapNext (·.withInputs k r d) (execCall nnn s) := by
  have hpc : (s.withInputs k r d).pc = s.pc := rfl
  rw [execCall, execCall, hpc, State.push_withInputs]
  cases s.push (s.pc + 2) <;> rfl

theorem execRet_withInputs :
    execRet (s.withInputs k r d) = mapNext (·.withInputs k r d) (execRet s) := by
  rw [execRet, execRet, State.pop_withInputs]
  cases s.pop <;> rfl

/-- The completed instruction `t` is stated apart from `u`, the same instruction completed under the other inputs. -/
theorem withRange_withInputs {base count : Nat} {t u : State} (hu : u = t.withInputs k r d) :
    withRange base count (s.withInputs k r d) u = mapNext (·.withInputs k r d) (withRange base count s t) := by
  subst hu
  unfold withRange
  cases firstOutOfRange base count <;> rfl

/-- A keypad skip whose condition is `c` does not look at the inputs again. -/
theorem keySkip_withInputs (x : Reg) (c : Bool) :
    keySkip x c (s.withInputs k r d) = mapNext (·.withInputs k r d) (keySkip x c s) := by
  have hv : (s.withInputs k r d).getV x = s.getV x := rfl
  rw [keySkip, keySkip, hv]
  split <;> rfl

theorem execLdKey_withInputs (x : Reg) :
    execLdKey x (s.withInputs s.key r d) = mapNext (·.withInputs s.key r d) (execLdKey x s) := by
  have hkey : (s.withInputs s.key r d).firstKey = s.firstKey := rfl
  rw [execLdKey, execLdKey, hkey]
  cases s.firstKey <;> rfl

variable {s k}

/-- An instruction that draws no sample carries other inputs along unread, the key states included where it does not
read the keypad. -/
theorem exec_withInputs {i : Instr} (hk : readsKeys i = true → k = s.key) (hd : drawsSample i = false) :
    exec i (s.withInputs k r d) = mapNext (·.withInputs k r d) (exec i s) := by
  cases i with
  | rnd => cases hd
  | call nnn => exact execCall_withInputs s k r d nnn
  | ret => exact execRet_withInputs s k r d
  | drw | ldBcd | storeRegs | loadRegs => exact withRange_withInputs s k r d rfl
  | skp | sknp =>
    obtain rfl := hk rfl
    exact keySkip_withInputs s s.key r d _ _
  | ldKey x =>
    obtain rfl := hk rfl
    exact execLdKey_withInputs s r d x
  | _ => rfl

end Inputs

/-- Two changes of the next state are one where they agree on it. -/
theorem mapNext_congr {f g : State → State} {o : Host.Outcome State Fault Refusal}
    (h : ∀ t, o = .next t → f t = g t) : mapNext f o = mapNext g o := by
  cases o with
  | next t => exact congrArg Host.Outcome.next (h t rfl)
  | fault | refused => rfl

/-- Settles O19: `RND` computes the same under any key states; every other instruction outside the three carries the
inputs along and keeps the random one. -/
theorem keypadMattersOnlyToKeypadInstrs : Obligations.KeypadMattersOnlyToKeypadInstrs := by
  intro i s k hi
  cases hd : drawsSample i with
  | true =>
    cases i with
    | rnd => rfl
    | _ => cases hd
  | false =>
    have hk : readsKeys i = true → k = s.key := fun h => by rw [hi] at h; cases h
    refine (exec_withInputs s.rndIn s.draws hk hd).trans (mapNext_congr fun t ht => ?_)
    obtain ⟨-, -, -, -, -, -, hsamples⟩ := environmentFrame i s t ht
    rw [hd] at hsamples
    obtain ⟨hrndIn, hdraws⟩ := hsamples
    rw [← hrndIn, ← hdraws]
    rfl

/-- Settles O20: every instruction but `RND` carries the inputs along and keeps the key states. -/
theorem randomInputMattersOnlyToRnd : Obligations.RandomInputMattersOnlyToRnd := by
  intro i s r d hd
  refine (exec_withInputs r d (fun _ => rfl) hd).trans (mapNext_congr fun t ht => ?_)
  obtain ⟨hkey, -⟩ := environmentFrame i s t ht
  rw [← hkey]
  rfl

end Sys2Proof.Machine
end

section
/-! Control transfer (41_flow_and_skip.md): jumps, calls and returns, and the skips that compare. -/

namespace Sys2Proof.Machine

section Subroutines

variable {s : State}

/-- `CALL` with a free slot (R123). -/
theorem exec_call_of_free (nnn : Lit12) (h : s.sp.val < Config.stackCap) :
    exec (.call nnn) s = .next { s with
      sp := ⟨s.sp.val + 1, by omega⟩, stack := s.stack.set s.sp.val (s.pc + 2) h, pc := addrOf nnn } := by
  rw [exec, execCall, State.push_of_free s _ h]
  rfl

/-- `RET` with a return address held (R121). -/
theorem exec_ret_of_held (x : Reg) (k : Fin Config.stackCap) (h : s.sp.val = k.val + 1) :
    exec (.ret x) s = .next { s with sp := ⟨k.val, by omega⟩, pc := s.stack.get k } := by
  rw [exec, execRet, State.pop_of_held s k h]
  rfl

end Subroutines

/-- An instruction step in memory executes the instruction that the word at `PC` decodes to (40_fetch_dispatch.md R101,
R104). -/
theorem instrStep_of_decode {s : State} {i : Instr} (hf : s.fault = none) (hpc : s.pc.toNat ≤ 0xFFE)
    (h : decodeWord (Memory.readWord s.mem s.pc.toNat) = .ok i) : instrStep s = exec i s := by
  rw [instrStep_of_in hf hpc, execWord_of_decode h]

/-- Settles O35: the `RET` pops the slot that the `CALL` has just filled. -/
theorem callThenRetRoundTrip : Obligations.CallThenRetRoundTrip := by
  intro s nnn x h hf hpc hcall hnnn hret
  have hslot : (s.stack.set s.sp.val (s.pc + 2) h).get ⟨s.sp.val, h⟩ = s.pc + 2 := by
    rw [Vector.get_eq_getElem, Vector.getElem_set_self]
  rw [← toNat_addrOf] at hnnn hret
  refine ⟨_, (instrStep_of_decode hf hpc hcall).trans (exec_call_of_free nnn h), ?_⟩
  refine Eq.trans (instrStep_of_decode hf hnnn hret) (Eq.trans (exec_ret_of_held x ⟨s.sp.val, h⟩ rfl) ?_)
  rw [hslot]

/-- Settles O32: the literal and the offset sum are exact as 16-bit words. -/
theorem jumpsSetPc : Obligations.JumpsSetPc := by
  intro nnn s
  refine ⟨?_, ?_, ?_⟩
  · rw [← addrOf_eq_ofNat]
    rfl
  · rw [← toNat_offsetTarget, BitVec.ofNat_toNat, BitVec.setWidth_eq]
    rfl
  · have := (s.getV 0).isLt
    have := nnn.isLt
    omega

/-- Settles O33: a free slot takes the return address; a full stack is the cause the table lists. -/
theorem callPushesReturnAddress : Obligations.CallPushesReturnAddress := by
  intro nnn s
  refine ⟨fun h => ⟨_, exec_call_of_free nnn h, rfl, fun k => ?_, ?_, fun _ => rfl⟩,
    fun h => takesFault_of_faultOf (if_pos h)⟩
  · simp only [Vector.get_eq_getElem, Vector.getElem_set, eq_comm]
  · rw [addrOf_eq_ofNat]

/-- Settles O34: the topmost slot is read and kept; an empty stack is the cause the table lists. -/
theorem retPopsReturnAddress : Obligations.RetPopsReturnAddress :=
  fun x _ => ⟨fun k h => ⟨_, exec_ret_of_held x k h, rfl, rfl, fun _ => rfl⟩,
    fun h => takesFault_of_faultOf (if_pos h)⟩

section Skips

variable (s : State) (a b : Byte)

theorem State.skipIf_beq :
    s.skipIf (a == b) = { s with pc := if a = b then s.pc + 4 else s.pc + 2 } := by
  rw [State.skipIf, State.setPc]
  simp only [beq_iff_eq]

theorem State.skipIf_bne :
    s.skipIf (a != b) = { s with pc := if a = b then s.pc + 2 else s.pc + 4 } := by
  rw [State.skipIf, State.setPc]
  simp only [bne_iff_ne, ne_eq, ite_not]

end Skips

/-- Settles O36: each of the three is a skip on a comparison of two bytes. -/
theorem compareSkipsMovePc : Obligations.CompareSkipsMovePc :=
  fun x y nn s => ⟨congrArg Host.Outcome.next (s.skipIf_beq (s.getV x) nn),
    congrArg Host.Outcome.next (s.skipIf_bne (s.getV x) nn),
    congrArg Host.Outcome.next (s.skipIf_beq (s.getV x) (s.getV y))⟩

/-- Settles O37: a skip on the two registers' difference, and the ignored field is not read. -/
theorem sneRegMovesPc : Obligations.SneRegMovesPc :=
  fun x y _ s => congrArg Host.Outcome.next (s.skipIf_bne (s.getV x) (s.getV y))

end Sys2Proof.Machine
end

section
/-! Register loads, the ALU and the random byte (42_register_alu.md): what the three patterns of register writes leave,
and the byte results in the spec's arithmetic. -/

namespace Sys2Proof.Machine

section RegisterWrites

variable (s : State) (x : Reg) {b : Byte} {c : Bool}

/-- One register, and no flag. -/
theorem writesRegs_setV {b' : Byte} (hb : b = b') :
    WritesRegs (.next (s.advance.setV x b)) s (fun r => if r = x then b' else s.getV r) := by
  subst hb
  exact ⟨_, rfl, fun r => s.advance.getV_setV x r b, rfl⟩

/-- The result, then the flag: with `x = 15` the flag stands (R141, decision D6). -/
theorem writesRegs_setV_setFlag :
    WritesRegs (.next ((s.advance.setV x b).setFlag c)) s
      (fun r => if r = 15 then boolByte c else if r = x then b else s.getV r) := by
  refine ⟨_, rfl, fun r => ?_, rfl⟩
  rw [State.getV_setFlag, State.getV_setV, State.getV_advance]

/-- The flag, then the result: with `x = 15` the result stands (R141, decision D6). -/
theorem writesRegs_setFlag_setV {b' flag : Byte} (hc : boolByte c = flag) (hb : b = b') :
    WritesRegs (.next ((s.advance.setFlag c).setV x b)) s
      (fun r => if r = x then b' else if r = 15 then flag else s.getV r) := by
  subst hc hb
  refine ⟨_, rfl, fun r => ?_, rfl⟩
  rw [State.getV_setV, State.getV_setFlag, State.getV_advance]

end RegisterWrites

/-! The results, for operands given by their values. -/

section Results

variable {a b : Byte} {m n : Nat}

theorem add_eq_ofNat (a b : Byte) : a + b = BitVec.ofNat 8 ((a.toNat + b.toNat) % 256) := by
  apply BitVec.eq_of_toNat_eq
  rw [BitVec.toNat_add, BitVec.toNat_ofNat, Nat.mod_mod]

theorem sub_eq_ofNat (ha : a.toNat = m) (hb : b.toNat = n) : a - b = BitVec.ofNat 8 ((m + 256 - n) % 256) := by
  have := b.isLt
  apply BitVec.eq_of_toNat_eq
  rw [BitVec.toNat_sub, BitVec.toNat_ofNat, ha, hb]
  omega

theorem shiftRight_one_eq_ofNat (ha : a.toNat = m) : a >>> 1 = BitVec.ofNat 8 (m / 2) := by
  have := a.isLt
  apply BitVec.eq_of_toNat_eq
  rw [BitVec.toNat_ushiftRight, BitVec.toNat_ofNat, Nat.shiftRight_eq_div_pow, ha]
  omega

theorem shiftLeft_one_eq_ofNat (ha : a.toNat = m) : a <<< 1 = BitVec.ofNat 8 (m * 2 % 256) := by
  apply BitVec.eq_of_toNat_eq
  rw [BitVec.toNat_shiftLeft, BitVec.toNat_ofNat, Nat.shiftLeft_eq, ha]
  omega

end Results

/-! The flag as the number `f`, and the operands that the flag write leaves. -/

section Flag

variable {s : State} {c : Bool} {f a : Nat}

theorem toNat_of_boolByte_eq (hc : boolByte c = BitVec.ofNat 8 f) (hf : f < 256) : c.toNat = f := by
  rw [← toNat_boolByte, hc, BitVec.toNat_ofNat, Nat.mod_eq_of_lt hf]

/-- An operand after the flag write: register 15 is the new flag (R141, decision D6). -/
theorem toNat_getV_setFlag (hc : c.toNat = f) {q : Reg} (ha : a = if q = 15 then f else (s.getV q).toNat) :
    ((s.advance.setFlag c).getV q).toNat = a := by
  rw [State.getV_setFlag, State.getV_advance, apply_ite BitVec.toNat, toNat_boolByte, hc, ha]

end Flag

theorem toNat_noBorrow (a b : Byte) : (noBorrow a b).toNat = if b.toNat ≤ a.toNat then 1 else 0 :=
  toNat_of_boolByte_eq (boolByte_noBorrow a b) (by split <;> decide)

theorem toNat_lowBit (a : Byte) : (lowBit a).toNat = a.toNat % 2 :=
  toNat_of_boolByte_eq (boolByte_lowBit a) (by omega)

theorem toNat_highBit (a : Byte) : (highBit a).toNat = a.toNat / 128 :=
  toNat_of_boolByte_eq (boolByte_highBit a) (by have := a.isLt; omega)

/-- The flag of a subtraction, then the difference of `p` and `q` as that write left them (R149, R151). -/
theorem writesRegs_difference (s : State) (x p q : Reg) {f a b : Nat}
    (hf : f = if (s.getV q).toNat ≤ (s.getV p).toNat then 1 else 0)
    (ha : a = if p = 15 then f else (s.getV p).toNat) (hb : b = if q = 15 then f else (s.getV q).toNat) :
    let t := s.advance.setFlag (noBorrow (s.getV p) (s.getV q))
    WritesRegs (.next (t.setV x (t.getV p - t.getV q))) s (fun r =>
      if r = x then BitVec.ofNat 8 ((a + 256 - b) % 256) else if r = 15 then BitVec.ofNat 8 f else s.getV r) := by
  have hc : (noBorrow (s.getV p) (s.getV q)).toNat = f := (toNat_noBorrow _ _).trans hf.symm
  exact writesRegs_setFlag_setV s x (hf ▸ boolByte_noBorrow _ _)
    (sub_eq_ofNat (toNat_getV_setFlag hc ha) (toNat_getV_setFlag hc hb))

/-- Settles O38: each writes one register. -/
theorem loadsAndImmediateAdd : Obligations.LoadsAndImmediateAdd :=
  fun x _ _ s => ⟨writesRegs_setV s x rfl, writesRegs_setV s x (add_eq_ofNat _ _), writesRegs_setV s x rfl⟩

/-- Settles O39: each writes its result and then the flag of `false`. -/
theorem logicalOpsClearFlag : Obligations.LogicalOpsClearFlag :=
  fun x _ s => ⟨writesRegs_setV_setFlag s x, writesRegs_setV_setFlag s x, writesRegs_setV_setFlag s x⟩

/-- Settles O40: the flag first, so that the sum stands where both go to `VF`. -/
theorem addRegSetsCarry : Obligations.AddRegSetsCarry :=
  fun x _ s => writesRegs_setFlag_setV s x (boolByte_carryOut _ _) (add_eq_ofNat _ _)

/-- Settles O41: the two differ only in which operand is subtracted from which. -/
theorem subtractionsSetNoBorrow : Obligations.SubtractionsSetNoBorrow :=
  fun x y s => ⟨fun _ _ _ hf ha hb => writesRegs_difference s x x y hf ha hb,
    fun _ _ _ hf ha hb => writesRegs_difference s x y x hf hb ha⟩

/-- Settles O42: the shifted register is read after the flag write. -/
theorem shiftsSetShiftedOutBit : Obligations.ShiftsSetShiftedOutBit := by
  intro x y s
  constructor
  · intro f a hf ha
    have hc : (lowBit (s.getV x)).toNat = f := (toNat_lowBit _).trans hf.symm
    exact writesRegs_setFlag_setV s x (hf ▸ boolByte_lowBit _) (shiftRight_one_eq_ofNat (toNat_getV_setFlag hc ha))
  · intro f a hf ha
    have hc : (highBit (s.getV x)).toNat = f := (toNat_highBit _).trans hf.symm
    exact writesRegs_setFlag_setV s x (hf ▸ boolByte_highBit _) (shiftLeft_one_eq_ofNat (toNat_getV_setFlag hc ha))

/-- Settles O43: one register is written, from the state after the sample has been taken. -/
theorem rndMasksTheSample : Obligations.RndMasksTheSample := by
  intro x nn s
  obtain ⟨t, ht, hv, hframe⟩ := writesRegs_setV s.takeSample x (b := s.sample &&& nn) rfl
  have hx : t.getV x = s.sample &&& nn := (hv x).trans (if_pos rfl)
  refine ⟨t, ht, hv, ?_, fun b bs hin => ?_, hframe⟩
  · rw [hx, BitVec.and_assoc, BitVec.and_not_self]
    exact BitVec.and_zero
  · rw [hx, State.sample, hin, List.headD_cons]

end Sys2Proof.Machine
end

section
/-! Index register and memory instructions (43_index_memory.md): the writes of `I`, and what a store and a load that
stay in memory leave in each byte and in each register. -/

namespace Sys2Proof.Machine

/-- The sum of `ADD I, Vx` wraps at 65536 (R162, decision D13). -/
theorem add_widen_eq_ofNat (w : Word) (b : Byte) :
    w + widen b = BitVec.ofNat 16 ((w.toNat + b.toNat) % 65536) := by
  apply BitVec.eq_of_toNat_eq
  rw [BitVec.toNat_add, toNat_widen, BitVec.toNat_ofNat, Nat.mod_mod]

/-- Settles O44: each writes `I` alone, and the values agree. -/
theorem indexRegisterWrites : Obligations.IndexRegisterWrites := by
  intro nnn x s
  refine ⟨?_, ?_, rfl⟩
  · rw [← addrOf_eq_ofNat]
    rfl
  · rw [← add_widen_eq_ofNat]
    rfl

/-- Byte `k` of successive writes that stay in memory reads back at `a + k` (20_memory.md R59). -/
theorem Memory.read_writeBytes_add {m : Memory} {a k : Nat} {bs : List Byte} (hm : Memory.wf m)
    (hfits : a + bs.length ≤ Config.memSize) (hk : k < bs.length) :
    Memory.read (Memory.writeBytes m a bs) (a + k) = bs.getD k 0 := by
  rw [Memory.read_writeBytes _ _ _ _ hm hfits, if_pos ⟨Nat.le_add_right a k, Nat.add_lt_add_left hk a⟩,
    Nat.add_sub_cancel_left]

/-- A decimal store that stays in memory writes the three digits from `I` on (R164). -/
theorem exec_ldBcd_of_in {x : Reg} {s : State} (h : s.i.toNat + 2 ≤ 0xFFF) :
    exec (.ldBcd x) s =
      .next (s.advance.setMem (Memory.writeBytes s.mem (dataAddr s) (decimalDigits (s.getV x)))) :=
  withRange_of_in _ _ _ _ (.inr (by rw [dataAddr]; omega))

/-- The bytes of `decimalDigits` are hundreds, tens and ones, exact (R164). -/
theorem toNat_getD_decimalDigits (v : Byte) :
    ((decimalDigits v).getD 0 0).toNat = v.toNat / 100 ∧ ((decimalDigits v).getD 1 0).toNat = v.toNat / 10 % 10 ∧
      ((decimalDigits v).getD 2 0).toNat = v.toNat % 10 := by
  have := v.isLt
  simp only [decimalDigits, List.getD_cons_zero, List.getD_cons_succ, BitVec.toNat_ofNat]
  omega

/-- Settles O45: digit `k` reads back at `I + k`, and byte writes leave every address outside their range alone. -/
theorem bcdStoresThreeDigits : Obligations.BcdStoresThreeDigits := by
  intro x s hm hin
  have hfits : dataAddr s + (decimalDigits (s.getV x)).length ≤ Config.memSize := Nat.succ_le_succ hin
  have hread {k n : Nat} (hk : k < 3) (hn : ((decimalDigits (s.getV x)).getD k 0).toNat = n) :
      (Memory.read (Memory.writeBytes s.mem (dataAddr s) (decimalDigits (s.getV x))) (dataAddr s + k)).toNat = n := by
    rw [Memory.read_writeBytes_add hm hfits hk, hn]
  obtain ⟨hhundreds, htens, hones⟩ := toNat_getD_decimalDigits (s.getV x)
  refine ⟨_, exec_ldBcd_of_in hin, hread (by decide) hhundreds, hread (by decide) htens, hread (by decide) hones,
    fun a ha => ?_, rfl⟩
  exact Memory.read_writeBytes_outside _ _ _ a (by rwa [length_decimalDigits])

/-- Settles O46: register `k` is byte `k` of the block written from `I` on. -/
theorem storeRegsWritesEachByte : Obligations.StoreRegsWritesEachByte := by
  intro x s hm hin
  refine ⟨_, exec_storeRegs_of_in hin, fun k hk => read_writeBytes_lowRegs hm hin hk, fun a ha => ?_, rfl⟩
  exact Memory.read_writeBytes_outside _ _ _ a (by rwa [length_lowRegs])

/-- A block load that stays in memory writes the register file alone (R166). -/
theorem exec_loadRegs_of_in {x : Reg} {s : State} (h : s.i.toNat + x.val ≤ 0xFFF) :
    exec (.loadRegs x) s = .next { s.advance with v := loadedRegs s x } :=
  withRange_of_in _ _ _ _ (.inr (by simp only [dataAddr, regCount]; omega))

/-- Settles O47: in range, the load completes with the register file of R166. -/
theorem loadRegsReadsEachByte : Obligations.LoadRegsReadsEachByte :=
  fun x s hin => ⟨_, exec_loadRegs_of_in hin, get_loadedRegs s x, rfl⟩

/-- Settles O49: the store leaves `I` and puts register `k` at `I + k`, which is where the load reads it. -/
theorem storeThenLoadRestoresRegs : Obligations.StoreThenLoadRestoresRegs := by
  intro x s t v hm hin h
  obtain ⟨t', ht, hstored, -, hframe⟩ := storeRegsWritesEachByte x s hm hin
  obtain rfl : t = t' := Host.Outcome.next.inj (h.symm.trans ht)
  have hi : t.i = s.i := by rw [hframe]
  have haddr : dataAddr { t with v := v } = dataAddr s := congrArg BitVec.toNat hi
  obtain ⟨u, hu, hloaded, -⟩ := loadRegsReadsEachByte x { t with v := v } (hi ▸ hin)
  refine ⟨u, hu, fun r => (hloaded r).trans (ite_congr rfl (fun hr => ?_) fun _ => rfl)⟩
  rw [haddr]
  exact hstored r hr

end Sys2Proof.Machine
end

section
/-! Display (44_display.md): the cleared display, the state that a draw in memory leaves, and two draws of one sprite. -/

namespace Sys2Proof.Machine

@[simp] theorem Display.cell_clear (k : Nat) : Display.cell Display.clear k = false := by
  rw [Display.cell, Display.clear, Vector.getElem?_replicate]
  split <;> rfl

/-- Settles O51: the state after `CLS` differs in `PC` and in the display, which is the cleared one. -/
theorem clsClearsEveryCell : Obligations.ClsClearsEveryCell :=
  fun _ _ => ⟨_, rfl, fun k _ => Display.cell_clear k, rfl⟩

/-- Every index names the cell of a column and a row (20_memory.md R67). -/
theorem exists_cellIndex_eq {k : Nat} (hk : k < 2048) : ∃ cx cy, cx < 64 ∧ cy < 32 ∧ cellIndex cx cy = k :=
  ⟨k % 64, k / 64, Nat.mod_lt k (by decide), Nat.div_lt_of_lt_mul hk, Nat.div_add_mod' k 64⟩

theorem boolByte_eq_one_iff (b : Bool) : boolByte b = 1 ↔ b = true := by cases b <;> decide

/-- The flag byte of a canvas that set out without a collision is 1 where a bit met a lit cell. -/
theorem Composed.flag_eq_one_iff {f : Nat → Nat → Bool} {d : Display} {c : Canvas} (h : Composed f (d, false) c) :
    boolByte c.2 = 1 ↔ ∃ cx cy, cx < 64 ∧ cy < 32 ∧ f cx cy = true ∧ Display.cell d (cellIndex cx cy) = true := by
  rw [boolByte_eq_one_iff, h.hit]
  simp only [Bool.false_eq_true, false_or]

section Twice

variable {f : Nat → Nat → Bool} {c c' c'' : Canvas}

/-- The same bits composed twice restore each cell, since a XOR undoes itself. -/
theorem Composed.twice_disp (h : Composed f c c') (h' : Composed f (c'.1, false) c'') : c''.1 = c.1 := by
  refine Display.ext_cell _ _ fun k hk => ?_
  obtain ⟨cx, cy, hx, hy, rfl⟩ := exists_cellIndex_eq hk
  rw [h'.cell cx cy hx hy, h.cell cx cy hx hy, Bool.xor_assoc, Bool.xor_self, Bool.xor_false]

/-- A bit meets a cell that is lit after the first composition exactly where that composition lit it. -/
theorem Composed.twice_flag (h : Composed f c c') (h' : Composed f (c'.1, false) c'') :
    boolByte c''.2 = 1 ↔ ∃ k < 2048, Display.cell c'.1 k = true ∧ Display.cell c.1 k = false := by
  have hlit {cx cy : Nat} (hx : cx < 64) (hy : cy < 32) :
      (f cx cy = true ∧ Display.cell c'.1 (cellIndex cx cy) = true) ↔
        (Display.cell c'.1 (cellIndex cx cy) = true ∧ Display.cell c.1 (cellIndex cx cy) = false) := by
    rw [h.cell cx cy hx hy]
    cases f cx cy <;> cases Display.cell c.1 (cellIndex cx cy) <;> decide
  rw [h'.flag_eq_one_iff]
  constructor
  · rintro ⟨cx, cy, hx, hy, hmet⟩
    exact ⟨cellIndex cx cy, cellIndex_lt hx hy, (hlit hx hy).1 hmet⟩
  · rintro ⟨k, hk, hnew⟩
    obtain ⟨cx, cy, hx, hy, rfl⟩ := exists_cellIndex_eq hk
    exact ⟨cx, cy, hx, hy, (hlit hx hy).2 hnew⟩

end Twice

section Draw

variable (x y : Reg) (n : Nibble) (s : State)

/-- The sprite bits that `DRW Vx, Vy, n` puts on the display (44_display.md R182). -/
def spriteBits : Nat → Nat → Bool :=
  spriteBit (originX s x) (originY s y) (Memory.readBytes s.mem (dataAddr s) (spriteRows s y n))

/-- The state after a `DRW Vx, Vy, n` whose rows lie in memory. -/
def State.drawn : State := (s.advance.setDisp (drawSprite x y n s).1).setFlag (drawSprite x y n s).2

theorem drawSprite_composed : Composed (spriteBits x y n s) (s.disp, false) (drawSprite x y n s) := by
  refine drawRows_composed _ _ _ _ ?_
  have horigin : originY s y < 32 := Nat.mod_lt _ (by decide)
  simp only [Memory.readBytes, List.length_map, List.length_range, spriteRows, Config.dispH]
  omega

variable {x y n s}

theorem exec_drw_of_in (h : spriteRows s y n = 0 ∨ dataAddr s + spriteRows s y n ≤ 4096) :
    exec (.drw x y n) s = .next (s.drawn x y n) := withRange_of_in _ _ _ _ h

theorem faultOf_drw_eq_none_iff :
    faultOf (.drw x y n) s = none ↔ spriteRows s y n = 0 ∨ dataAddr s + spriteRows s y n ≤ 4096 := by
  simp only [faultOf, spriteRows, originY, dataAddr, Config.dispH, ite_eq_right_iff, reduceCtorEq, imp_false]
  omega

theorem State.getV_drawn_flag : (s.drawn x y n).getV 15 = boolByte (drawSprite x y n s).2 := by
  rw [State.drawn, State.getV_setFlag, if_pos rfl]

theorem State.getV_drawn_flag_bit : (s.drawn x y n).getV 15 = 0 ∨ (s.drawn x y n).getV 15 = 1 := by
  rw [State.getV_drawn_flag]
  cases (drawSprite x y n s).2 <;> decide

theorem State.getV_drawn_of_ne {r : Reg} (h : r ≠ 15) : (s.drawn x y n).getV r = s.getV r := by
  rw [State.drawn, State.getV_setFlag, if_neg h, State.getV_setDisp, State.getV_advance]

theorem spriteRows_drawn (hy : y ≠ 15) : spriteRows (s.drawn x y n) y n = spriteRows s y n := by
  rw [spriteRows, originY, State.getV_drawn_of_ne hy]
  rfl

/-- A draw whose origin is not in `VF` keeps memory, `I` and the origin, hence the bits of the same draw after it. -/
theorem spriteBits_drawn (hx : x ≠ 15) (hy : y ≠ 15) : spriteBits x y n (s.drawn x y n) = spriteBits x y n s := by
  rw [spriteBits, spriteRows_drawn hy, originX, originY, State.getV_drawn_of_ne hx, State.getV_drawn_of_ne hy]
  rfl

end Draw

/-- Settles O52: the draw composes the sprite's bits with the display, and `VF` is the collision flag it ends with. -/
theorem drwXorsTheSprite : Obligations.DrwXorsTheSprite := by
  rintro x y n s _ _ _ _ rfl rfl rfl rfl hin
  have hdraw := drawSprite_composed x y n s
  refine ⟨s.drawn x y n, exec_drw_of_in ?_, hdraw.cell, State.getV_drawn_flag_bit, ?_,
    fun r => State.getV_drawn_of_ne, fun _ => rfl, rfl⟩
  · simp only [spriteRows, originY, dataAddr, Config.dispH]
    omega
  · rw [State.getV_drawn_flag]
    exact hdraw.flag_eq_one_iff

/-- Settles O53: the second draw finds the sprite, the place and the range of the first, so its bits are composed with
the display twice. -/
theorem drwTwiceRestoresDisplay : Obligations.DrwTwiceRestoresDisplay := by
  intro x y n s t hx hy hf h
  have hin := faultOf_drw_eq_none_iff.1 hf
  obtain rfl : s.drawn x y n = t := Host.Outcome.next.inj ((exec_drw_of_in hin).symm.trans h)
  have hin' : spriteRows (s.drawn x y n) y n = 0 ∨
      dataAddr (s.drawn x y n) + spriteRows (s.drawn x y n) y n ≤ 4096 := by
    rw [spriteRows_drawn hy]
    exact hin
  have hfirst := drawSprite_composed x y n s
  have hsecond := drawSprite_composed x y n (s.drawn x y n)
  rw [spriteBits_drawn hx hy] at hsecond
  refine ⟨_, exec_drw_of_in hin', hfirst.twice_disp hsecond, State.getV_drawn_flag_bit, ?_⟩
  rw [State.getV_drawn_flag]
  exact hfirst.twice_flag hsecond

end Sys2Proof.Machine
end

section
/-! Keypad and timers (45_keypad_timers.md): the skips on a key, the key wait's two answers, and the timer transfers. -/

namespace Sys2Proof.Machine

section Keys

variable {x k : Reg} {s : State}

/-- A keypad skip whose register names a key does not fault (R191, R192). -/
theorem keySkip_of_key (c : Bool) (h : (s.getV x).toNat = k.val) : keySkip x c s = .next (s.skipIf c) :=
  if_pos ((keyIndexOk_iff _).2 (h ▸ Fin.is_le k))

/-- The skip on a condition that does not hold. -/
theorem State.skipIf_not (s : State) (c : Bool) :
    s.skipIf (!c) = { s with pc := if c = true then s.pc + 2 else s.pc + 4 } := by
  cases c <;> rfl

/-- The key wait with a pressed key found by the scan (R194). -/
theorem exec_ldKey_of_some (h : s.firstKey = some k) :
    exec (.ldKey x) s = .next (s.advance.setV x (keyByte k)) := by
  rw [exec, execLdKey, h]

/-- The key wait with no key found (R194, decision D16). -/
theorem exec_ldKey_of_none (h : s.firstKey = none) : exec (.ldKey x) s = .next s := by
  rw [exec, execLdKey, h]

end Keys

/-- Settles O56: the scan finds the least pressed key, and finds none where none is pressed. -/
theorem keyWaitTakesLeastKeyOrRetries : Obligations.KeyWaitTakesLeastKeyOrRetries := by
  refine fun x s => ⟨fun k hk hleast => ?_, fun hnone => exec_ldKey_of_none (firstKey_eq_none s hnone)⟩
  rw [exec_ldKey_of_some (firstKey_eq_some s k hk hleast)]
  exact writesRegs_setV s x rfl

/-- Settles O54: both skip on the state of the key that the register names, one of them on its negation. -/
theorem keypadSkipsMovePc : Obligations.KeypadSkipsMovePc := by
  intro x k s h
  have hkey : s.keyAt (s.getV x).toNat = s.key.get k := by rw [h, keyAt_eq_get]
  constructor
  · rw [exec, execSkp, hkey, keySkip_of_key _ h]
    rfl
  · rw [exec, execSknp, hkey, keySkip_of_key _ h, State.skipIf_not]

/-- Settles O55: the condition is the one under which the table of causes lists the fault. -/
theorem keypadIndexAbove15Faults : Obligations.KeypadIndexAbove15Faults :=
  fun _ _ h => ⟨takesFault_of_faultOf (if_pos h), takesFault_of_faultOf (if_pos h)⟩

/-- Settles O57: one writes a register, and the others write one timer each, never `TONE`. -/
theorem timerTransfers : Obligations.TimerTransfers :=
  fun x s => ⟨writesRegs_setV s x rfl, rfl, rfl⟩

end Sys2Proof.Machine
end

section
/-! Faults (60_exceptions.md R201 to R203): the latch after an instruction, read off the two ways it executes. -/

namespace Sys2Proof.Machine

/-- No class of a completed instruction writes the latch. -/
theorem Completes.fault {i : Instr} {s t : State} (h : Completes i s t) : t.fault = s.fault := by
  cases h with
  | regs _ _ ht | sample _ _ ht | index _ _ ht | display _ _ _ ht | store _ _ _ ht | setDt _ _ ht | setSt _ _ ht
  | call _ _ _ ht | ret _ _ _ _ ht => rw [ht]

/-- From an unfaulted state the latch afterwards is what the table of causes gives the instruction. -/
theorem Executes.fault {i : Instr} {s t : State} (h : Executes i s t) (hs : s.fault = none) :
    t.fault = faultOf i s := by
  rcases h with ⟨f, hf, rfl⟩ | ⟨hnone, hc⟩
  · exact hf.symm
  · rw [hc.fault, hs, hnone]

/-- Settles O23: every instruction executes, and so latches its entry of the table of causes. -/
theorem faultsAreExactlyTheListedOnes : Obligations.FaultsAreExactlyTheListedOnes := by
  intro i s hs
  obtain ⟨t, ht, hex⟩ := exec_executes i s
  exact ⟨t, ht, hex.fault hs⟩

/-- Settles O22: the fault latched is the listed one, and an instruction that takes its listed fault writes nothing
but the latch. -/
theorem faultsArePrecise : Obligations.FaultsArePrecise := by
  intro i s t f hs h ht
  have hf : faultOf i s = some f := ((executes_of_exec h).fault hs).symm.trans ht
  cases h.symm.trans (takesFault_of_faultOf hf)
  rfl

end Sys2Proof.Machine
end

section
/-! The load (70_reset_and_hazards.md R232, R233): the two answers it gives, and what an accepted one leaves in
memory. -/

namespace Sys2Proof.Machine

/-- The memory with `FONT` at 0 that the image is then written into. -/
def fontMemory (font : Config.Font) : Memory := Memory.writeBytes State.reset.mem 0 font.toList

theorem wf_fontMemory (font : Config.Font) : Memory.wf (fontMemory font) :=
  Memory.wf_writeBytes _ _ _ Memory.wf_nil

/-- `FONT` reads back byte by byte (R232, R234). -/
theorem read_fontMemory (font : Config.Font) (k : Fin Config.fontLen) :
    Memory.read (fontMemory font) k.val = font.get k := by
  have hlen : font.toList.length = Config.fontLen := font.length_toList
  have hk : k.val < font.toList.length := by rw [hlen]; exact k.isLt
  have hfits : 0 + font.toList.length ≤ Config.memSize := by rw [hlen]; decide
  have hread := Memory.read_writeBytes_add Memory.wf_nil hfits hk
  rw [Nat.zero_add, List.getD_eq_getElem _ _ hk] at hread
  exact hread

/-- Above the font table stand the zeros of the reset memory (R42). -/
theorem read_fontMemory_eq_zero (font : Config.Font) {a : Nat} (h : 80 ≤ a) :
    Memory.read (fontMemory font) a = 0 := by
  have hout : 0 + font.toList.length ≤ a := by rw [font.length_toList]; exact h
  exact (Memory.read_writeBytes_outside _ _ _ a (.inr hout)).trans (background_eq_zero h)

/-- An image that fits is written over the font's memory, from `ENTRY` on. -/
theorem load_of_le {image : List Byte} (font : Config.Font) (h : image.length ≤ Config.romMax) :
    load image font = .next (State.reset.setMem (Memory.writeBytes (fontMemory font) Config.entry image)) :=
  if_neg (Nat.not_lt.2 h)

/-- An image that does not fit is refused, and no state is answered. -/
theorem load_of_gt {image : List Byte} (font : Config.Font) (h : Config.romMax < image.length) :
    load image font = .refused (.romOversize image.length Config.romMax) :=
  if_pos h

/-- Settles O59: the image reads back where it was written; it starts above the font table, so font and zeros
outside it read as before the image. -/
theorem loadPlacesFontAndImage : Obligations.LoadPlacesFontAndImage := by
  intro image font h
  have hfits : Config.entry + image.length ≤ Config.memSize := Nat.add_le_add_left h Config.entry
  have houtside {a : Nat} (ha : a < Config.entry ∨ Config.entry + image.length ≤ a) :
      Memory.read (Memory.writeBytes (fontMemory font) Config.entry image) a = Memory.read (fontMemory font) a :=
    Memory.read_writeBytes_outside _ _ _ a ha
  refine ⟨_, load_of_le font h, fun k => ?_, fun k hk => ?_, fun a hfont himage => ?_, rfl⟩
  · have hk : k.val < Config.entry := Nat.lt_trans k.isLt (by decide)
    exact (houtside (.inl hk)).trans (read_fontMemory font k)
  · exact Memory.read_writeBytes_add (wf_fontMemory font) hfits hk
  · exact (houtside himage).trans (read_fontMemory_eq_zero font hfont)

/-- Settles O60: the bound is the one `load` checks before it writes a byte. -/
theorem oversizeImageIsRefused : Obligations.OversizeImageIsRefused :=
  fun _ font h => load_of_gt font h

end Sys2Proof.Machine
end
